-- ==== Sys2Proof/Word.lean ====
section
/-! DEFINITION. The block's word types: the one floating-point format F (00_scope R7, 40_numerics R66), the 144-bit
command word (30_encoding R47) and the 44-bit response word (30_encoding R55). -/

namespace Sys2Proof

/-- A value of format F: an IEEE 754 binary32 pattern (40_numerics R66). Every sample, spec field, coefficient and
history cell has this one format (00_scope R7). -/
abbrev F := BitVec 32

/-- The command word `CMD[143:0]` (30_encoding R47). -/
abbrev CmdWord := BitVec 144

/-- The response word `RSP[43:0]` (30_encoding R55). -/
abbrev RspWord := BitVec 44

/-- `ofBits(b)`: the F value of the pattern b, the identity on patterns (40_numerics R66). -/
def ofBits (b : BitVec 32) : F := b

/-- `bitsF(v)`: the pattern of v, the identity on patterns (40_numerics R66). -/
def bitsF (v : F) : BitVec 32 := v

end Sys2Proof
end

