-- ==== Sys2Proof/Syntax.lean ====
section
/-! DEFINITION. The commands of the block: one constructor for each row of the opcode table (30_encoding R53). -/

namespace Sys2Proof

/-- The closed set of filter types, in the source's order (30_encoding R51). -/
inductive FilterType where
  | peak
  | highPass
  | lowPass
  | lowShelf
  | highShelf
deriving DecidableEq, Repr

/-- One accepted command. Channel numbers and counts are the exact naturals of 40_numerics R81 (that they fit the 8-bit
CH field is `Instr.WellFormed`); F operands are raw patterns (30_encoding R52). -/
inductive Instr where
  /-- `INIT n`: establish the channel count (41_config_ops R85). -/
  | init (n : Nat)
  /-- `BEGIN.PEAK fs, freq, gain, q` (42_design_ops R92). -/
  | beginPeak (fs freq gain q : F)
  /-- `BEGIN.HP fs, freq, gain, q`: gain is carried and ignored (42_design_ops R93). -/
  | beginHp (fs freq gain q : F)
  /-- `BEGIN.LP fs, freq, gain, q`: gain is carried and ignored (42_design_ops R94). -/
  | beginLp (fs freq gain q : F)
  /-- `BEGIN.LS fs, freq, gain, q` (42_design_ops R95). -/
  | beginLs (fs freq gain q : F)
  /-- `BEGIN.HS fs, freq, gain, q` (42_design_ops R96). -/
  | beginHs (fs freq gain q : F)
  /-- `SMP c, x`: filter one sample of channel c (43_sample_ops R110). -/
  | smp (c : Nat) (x : F)
deriving DecidableEq, Repr

end Sys2Proof
end

