-- ==== Sys2Proof/WellFormed.lean ====
section
/-! DEFINITION. Which instructions have an encoding: `n` and `c` are integers 0 .. 255 (30_encoding R47, R58). Every
pattern is legal in every F operand (30_encoding R49, R50). -/

namespace Sys2Proof

/-- The number fits the 8-bit field `CH` (30_encoding R47). -/
abbrev fitsCh (n : Nat) : Prop := n < 256

/-- The checks, one for each number an instruction carries. -/
def Instr.wellFormed : Instr → Bool
  | .init n => decide (fitsCh n)
  | .beginPeak _ _ _ _ => true
  | .beginHp _ _ _ _ => true
  | .beginLp _ _ _ _ => true
  | .beginLs _ _ _ _ => true
  | .beginHs _ _ _ _ => true
  | .smp c _ => decide (fitsCh c)

/-- The instruction has an encoding. -/
abbrev Instr.WellFormed (i : Instr) : Prop := i.wellFormed = true

end Sys2Proof
end

