-- ==== Sys2Proof/Decode.lean ====
section
/-! DEFINITION. The decoder, total on 144-bit words, by the mask and match rows of 30_encoding R53 and refusing by the
name of the case of R54; then the encoder, written from the formats of R47 to R51; then the two forms the host asks
with. -/

namespace Sys2Proof

/-- `OP = CMD[143:140]` (30_encoding R47). -/
def opField (w : CmdWord) : BitVec 4 := w.extractLsb' 140 4
/-- `FT = CMD[139:136]` (30_encoding R47). -/
def ftField (w : CmdWord) : BitVec 4 := w.extractLsb' 136 4
/-- `CH = CMD[135:128]` (30_encoding R47). -/
def chField (w : CmdWord) : BitVec 8 := w.extractLsb' 128 8
/-- `FS = CMD[127:96]` (30_encoding R47, R52). -/
def fsField (w : CmdWord) : F := ofBits (w.extractLsb' 96 32)
/-- `FREQ = CMD[95:64]` (30_encoding R47, R52). -/
def freqField (w : CmdWord) : F := ofBits (w.extractLsb' 64 32)
/-- `GAIN = CMD[63:32]` (30_encoding R47, R52). -/
def gainField (w : CmdWord) : F := ofBits (w.extractLsb' 32 32)
/-- `QD = CMD[31:0]` (30_encoding R47, R52). -/
def qdField (w : CmdWord) : F := ofBits (w.extractLsb' 0 32)

/-- One row of the opcode table: it selects w when `(w AND mask) = pattern` (30_encoding R53). -/
structure Row where
  mask : CmdWord
  pattern : CmdWord
  build : CmdWord → Instr

/-- The row of `INIT n` (30_encoding R48, R53). -/
def rowInit : Row :=
  { mask := 0xFF00FFFFFFFFFFFFFFFFFFFFFFFFFFFFFFFF#144
    pattern := 0x100000000000000000000000000000000000#144
    build := fun w => .init (chField w).toNat }
/-- The row of `BEGIN.PEAK` (30_encoding R49, R53). -/
def rowBeginPeak : Row :=
  { mask := 0xFFFF00000000000000000000000000000000#144
    pattern := 0x200000000000000000000000000000000000#144
    build := fun w => .beginPeak (fsField w) (freqField w) (gainField w) (qdField w) }
/-- The row of `BEGIN.HP` (30_encoding R49, R53). -/
def rowBeginHp : Row :=
  { mask := 0xFFFF00000000000000000000000000000000#144
    pattern := 0x210000000000000000000000000000000000#144
    build := fun w => .beginHp (fsField w) (freqField w) (gainField w) (qdField w) }
/-- The row of `BEGIN.LP` (30_encoding R49, R53). -/
def rowBeginLp : Row :=
  { mask := 0xFFFF00000000000000000000000000000000#144
    pattern := 0x220000000000000000000000000000000000#144
    build := fun w => .beginLp (fsField w) (freqField w) (gainField w) (qdField w) }
/-- The row of `BEGIN.LS` (30_encoding R49, R53). -/
def rowBeginLs : Row :=
  { mask := 0xFFFF00000000000000000000000000000000#144
    pattern := 0x230000000000000000000000000000000000#144
    build := fun w => .beginLs (fsField w) (freqField w) (gainField w) (qdField w) }
/-- The row of `BEGIN.HS` (30_encoding R49, R53). -/
def rowBeginHs : Row :=
  { mask := 0xFFFF00000000000000000000000000000000#144
    pattern := 0x240000000000000000000000000000000000#144
    build := fun w => .beginHs (fsField w) (freqField w) (gainField w) (qdField w) }
/-- The row of `SMP c, x` (30_encoding R50, R53). -/
def rowSmp : Row :=
  { mask := 0xFF00FFFFFFFFFFFFFFFFFFFFFFFF00000000#144
    pattern := 0x300000000000000000000000000000000000#144
    build := fun w => .smp (chField w).toNat (qdField w) }

/-- The opcode map (30_encoding R53), in the table's order. -/
def opcodeTable : List Row :=
  [rowInit, rowBeginPeak, rowBeginHp, rowBeginLp, rowBeginLs, rowBeginHs, rowSmp]

/-- The row selects the word: `(w AND mask) = match` (30_encoding R53). -/
def Row.selects (r : Row) (w : CmdWord) : Bool := w &&& r.mask == r.pattern

/-- Why a word is ILLEGAL: the four cases of 30_encoding R54. The block itself does not tell them apart. -/
inductive Illegal where
  /-- `OP` is 0 or 4 .. 15. -/
  | opcodeReserved
  /-- `OP = 1` with `FT ≠ 0` or `CMD[127:0] ≠ 0`. -/
  | initFieldNotZero
  /-- `OP = 2` with `FT` in 5 .. 15 or `CH ≠ 0`. -/
  | beginTypeOrChannel
  /-- `OP = 3` with `FT ≠ 0` or `CMD[127:32] ≠ 0`. -/
  | smpFieldNotZero
deriving DecidableEq, Repr

/-- The name of the case of 30_encoding R54 a word no row selects falls under. -/
def illegalReason (w : CmdWord) : Illegal :=
  if opField w = 1 then .initFieldNotZero
  else if opField w = 2 then .beginTypeOrChannel
  else if opField w = 3 then .smpFieldNotZero
  else .opcodeReserved

/-- `decode(CMD)` (30_encoding R53): the instruction of the row that selects the word, or the reason it is ILLEGAL. -/
def decode (w : CmdWord) : Except Illegal Instr :=
  match opcodeTable.find? (fun r => r.selects w) with
  | some r => .ok (r.build w)
  | none => .error (illegalReason w)

/-- The filter type code `FT` (30_encoding R51). -/
def filterTypeCode : FilterType → BitVec 4
  | .peak => 0
  | .highPass => 1
  | .lowPass => 2
  | .lowShelf => 3
  | .highShelf => 4

/-- A command word from its seven fields, the most significant first (30_encoding R47). -/
def layout (op ft : BitVec 4) (ch : BitVec 8) (fs freq gain qd : F) : CmdWord :=
  op ++ ft ++ ch ++ bitsF fs ++ bitsF freq ++ bitsF gain ++ bitsF qd

/-- Format B (30_encoding R49). -/
def encodeBegin (ft : FilterType) (fs freq gain q : F) : CmdWord :=
  layout 2 (filterTypeCode ft) 0 fs freq gain q

/-- The word of a well-formed instruction: formats I, B and S (30_encoding R48 to R50). -/
def encode : Instr → CmdWord
  | .init n => layout 1 0 (BitVec.ofNat 8 n) 0 0 0 0
  | .beginPeak fs freq gain q => encodeBegin .peak fs freq gain q
  | .beginHp fs freq gain q => encodeBegin .highPass fs freq gain q
  | .beginLp fs freq gain q => encodeBegin .lowPass fs freq gain q
  | .beginLs fs freq gain q => encodeBegin .lowShelf fs freq gain q
  | .beginHs fs freq gain q => encodeBegin .highShelf fs freq gain q
  | .smp c x => layout 3 0 (BitVec.ofNat 8 c) 0 0 0 x

/-- The host's question: the instruction in a word whose bits are w, numbered as the opcode table numbers them; the bits
above nbits are 0. A command is one 144-bit word without byte order (20_memory R32), so the number is the word; one that
needs more than 144 bits is no command. -/
def decodeTableWord (nbits w : Nat) : Option Instr :=
  let v := w % 2 ^ nbits
  if v < 2 ^ 144 then (decode (BitVec.ofNat 144 v)).toOption else none

end Sys2Proof
end

