-- ==== Sys2Proof/Config.lean ====
section
/-! DEFINITION. What an implementation fixes and the spec leaves open: NCH_MAX, FSIN, FCOS with TRIG_ULP, NANGEN (00_scope
section 4) and the values 10_state R21 leaves unspecified at hardware reset. A configuration is given as plain CHOICES;
they have properties T1 to T4 and "is a NaN" by construction. The accuracy T5 (40_numerics R76) is a property of the
choices taken together with `trigUlp`: `Config.Accurate` in Machine/Accuracy.lean, where the configuration of the
modelled block, `Config.machine`, is declared with it. -/

namespace Sys2Proof

/-- The operations that can return "a NaN" (40_numerics R68 to R70, R75): the first argument of NANGEN (R78). -/
inductive NumOp where
  | add
  | sub
  | mul
  | div
  | sqrt
  | sin
  | cos
deriving DecidableEq, Repr

/-- A NaN pattern: any sign, any fraction but 0 (`frac` is the fraction less one), so that it is a NaN by construction
(40_numerics R66, R78). -/
structure NanChoice where
  neg : Bool
  frac : Fin 8388607
deriving DecidableEq, Repr, Inhabited

/-- A value of sine or cosine at a finite non-zero angle: any sign, any magnitude pattern from 0 to that of 1.0, so that
-1 <= value <= 1 by construction (40_numerics R75, property T3). -/
structure TrigChoice where
  neg : Bool
  mag : Fin 1065353217
deriving DecidableEq, Repr, Inhabited

/-- The names of the cells 10_state R21 leaves unspecified at hardware reset: the six coefficient registers and
`XH[c][k]`, `YH[c][k]`. -/
inductive CellName where
  | a0
  | a1
  | a2
  | b0
  | b1
  | b2
  | xh (c k : Nat)
  | yh (c k : Nat)
deriving DecidableEq, Repr

/-- One configuration of the block (00_scope section 4). -/
structure Config where
  /-- NCH_MAX less one: NCH_MAX is any integer 1 .. 255 (92 D15). -/
  nchMaxPred : Fin 255
  /-- FSIN at finite non-zero angles (40_numerics R74); `fsin` adds properties T1, T2 and T4 of R75. -/
  sinChoice : F → TrigChoice
  /-- FCOS at finite non-zero angles (40_numerics R74); `fcos` adds properties T1 and T2 of R75. -/
  cosChoice : F → TrigChoice
  /-- TRIG_ULP: how many units in the last place FSIN and FCOS may be off at |w| <= 8; "a configuration constant, default
  1" (40_numerics R76). -/
  trigUlp : Rat := 1
  /-- NANGEN, a function of the operation and its operand patterns alone (40_numerics R78); an operation of one operand
  gives it twice. -/
  nanChoice : NumOp → F → F → NanChoice
  /-- What a cell holds after the n-th hardware reset (10_state R21: "unspecified"). -/
  unspecified : Nat → CellName → F
deriving Inhabited

/-- NCH_MAX, the number of channel-history slots, 1 .. 255 (00_scope section 4). -/
def Config.nchMax (cfg : Config) : Nat := cfg.nchMaxPred.val + 1

end Sys2Proof
end

