-- ==== Sys2Proof/Machine/Numerics.lean ====
section
/-! DEFINITION. The numerics record (40_numerics R65) and its binary32 member. Every finite F value is an exact multiple
of 2^-149, so each operation computes its exact result as a fraction of naturals, counted in units of 2^-149, and rounds
that once (R71). Nothing here reads state, traps or sets a flag (R72). -/

namespace Sys2Proof.Machine

/-- The numerics record: all arithmetic of the block goes through it and through nothing else (40_numerics R65). -/
structure Num where
  fadd : F → F → F
  fsub : F → F → F
  fmul : F → F → F
  fdiv : F → F → F
  fsqrt : F → F
  fneg : F → F
  fsin : F → F
  fcos : F → F
  one : F
  two : F
  twoPi : F

/-- The sign `s = b[31]` (40_numerics R66). -/
def signBit (a : F) : Bool := a.getLsbD 31
/-- The exponent field `e = b[30:23]` (40_numerics R66). -/
def expField (a : F) : Nat := a.toNat / 2 ^ 23 % 2 ^ 8
/-- The fraction field `m = b[22:0]` (40_numerics R66). -/
def fracField (a : F) : Nat := a.toNat % 2 ^ 23
/-- The pattern without its sign, `b[30:0]`. -/
def magBits (a : F) : Nat := a.toNat % 2 ^ 31

/-- `e = 255, m ≠ 0` (40_numerics R66). -/
def isNaN (a : F) : Bool := expField a == 255 && fracField a != 0
/-- `e = 255, m = 0` (40_numerics R66). -/
def isInf (a : F) : Bool := expField a == 255 && fracField a == 0
/-- `e = 0, m = 0` (40_numerics R66). -/
def isZero (a : F) : Bool := expField a == 0 && fracField a == 0
/-- Zero, subnormal or normal: `e ≠ 255` (40_numerics R66). -/
def isFinite (a : F) : Bool := expField a != 255

/-- The pattern with sign neg and magnitude bits mag. -/
def pack (neg : Bool) (mag : Nat) : F := BitVec.ofNat 32 ((if neg then 2 ^ 31 else 0) + mag)
/-- The zero of a sign (40_numerics R66). -/
def zeroF (neg : Bool) : F := pack neg 0
/-- The magnitude bits of an infinity: `e = 255, m = 0` (40_numerics R66). -/
def infBits : Nat := 0x7F800000
/-- The infinity of a sign (40_numerics R66). -/
def infF (neg : Bool) : F := pack neg infBits

/-- The value in units of 2^-149 that magnitude bits k stand for: `m` where `e = 0`, else `(2^23 + m) · 2^(e-1)` (the table of
40_numerics R66, less its last two rows). -/
def unitsOfMag (k : Nat) : Nat :=
  if k / 2 ^ 23 = 0 then k % 2 ^ 23 else (2 ^ 23 + k % 2 ^ 23) * 2 ^ (k / 2 ^ 23 - 1)

/-- The magnitude of a finite value in units of 2^-149 (40_numerics R66). -/
def magUnits (a : F) : Nat := unitsOfMag (magBits a)

/-- A finite value in units of 2^-149 (40_numerics R66). -/
def units (a : F) : Int := if signBit a then -(magUnits a : Int) else (magUnits a : Int)

/-- `round(r)` for `|r| = (p/q) · 2^-149`, p and q not 0, and r of the given sign (40_numerics R67). The quotient is cut to
24 significant bits, or to whole units where it has fewer (subnormals are kept); the remainder decides, a tie goes to
the even neighbour. Counting the exponent and the cut quotient together gives the magnitude bits, a carry into the
next binade included; from 2^31 - 2^23 on they are an infinity's. -/
def roundUnits (neg : Bool) (p q : Nat) : F :=
  let e := Nat.log2 (p / q) - 23
  let d := q * 2 ^ e
  let m := p / d
  let r := p % d
  let up := if 2 * r > d ∨ (2 * r = d ∧ m % 2 = 1) then 1 else 0
  pack neg (min (e * 2 ^ 23 + m + up) infBits)

/-- NANGEN as a pattern: `e = 255`, `m ≠ 0` (40_numerics R78). DESIGN CHOICE, safe (log entry 6). -/
def nanOf (cfg : Config) (op : NumOp) (a b : F) : F :=
  pack (cfg.nanChoice op a b).neg (infBits + 1 + (cfg.nanChoice op a b).frac.val)

/-- `fneg(a)`: bit 31 inverted (40_numerics R70). -/
def fnegBits (a : F) : F := a ^^^ 0x80000000#32

/-- `fadd(a, b)` (40_numerics R68). -/
def faddBits (cfg : Config) (a b : F) : F :=
  if isNaN a || isNaN b then nanOf cfg .add a b
  else if isInf a && isInf b && (signBit a != signBit b) then nanOf cfg .add a b
  else if isInf a then a
  else if isInf b then b
  else
    let r := units a + units b
    if r = 0 then zeroF (signBit a && signBit b)
    else roundUnits (decide (r < 0)) r.natAbs 1

/-- `fsub(a, b)` (40_numerics R68): of a NaN b "a NaN", else the sum with the negation. -/
def fsubBits (cfg : Config) (a b : F) : F :=
  if isNaN b then nanOf cfg .sub a b else faddBits cfg a (fnegBits b)

/-- `fmul(a, b)` (40_numerics R69). The product of two counts of 2^-149 counts 2^-298. -/
def fmulBits (cfg : Config) (a b : F) : F :=
  let neg := signBit a != signBit b
  if isNaN a || isNaN b then nanOf cfg .mul a b
  else if (isZero a && isInf b) || (isInf a && isZero b) then nanOf cfg .mul a b
  else if isInf a || isInf b then infF neg
  else if isZero a || isZero b then zeroF neg
  else roundUnits neg (magUnits a * magUnits b) (2 ^ 149)

/-- `fdiv(a, b)` (40_numerics R69). -/
def fdivBits (cfg : Config) (a b : F) : F :=
  let neg := signBit a != signBit b
  if isNaN a || isNaN b then nanOf cfg .div a b
  else if (isZero a && isZero b) || (isInf a && isInf b) then nanOf cfg .div a b
  else if isInf a then infF neg
  else if isInf b then zeroF neg
  else if isZero b then infF neg
  else if isZero a then zeroF neg
  else roundUnits neg (magUnits a * 2 ^ 149) (magUnits b)

/-- The integer square root of n, less than `acc + 2^bits`, built from the highest bit down. -/
def isqrtFrom (n : Nat) : Nat → Nat → Nat
  | 0, acc => acc
  | bits + 1, acc =>
    if (acc + 2 ^ bits) * (acc + 2 ^ bits) ≤ n then isqrtFrom n bits (acc + 2 ^ bits) else isqrtFrom n bits acc

/-- The integer square root of n below 2^428: what `fsqrtBits` needs, since a finite magnitude is below 2^278 units. -/
def isqrt (n : Nat) : Nat := isqrtFrom n 214 0

/-- `fsqrt(a)` (40_numerics R70). The root of `n · 2^-149` is `√(n · 2^149)` units. Where the integer root is not exact,
half a unit stands for the fraction left: the root has more than 24 significant bits above the unit, so no neighbour and
no tie lies between them and the rounding is that of the root. -/
def fsqrtBits (cfg : Config) (a : F) : F :=
  if isNaN a then nanOf cfg .sqrt a a
  else if isZero a then a
  else if signBit a then nanOf cfg .sqrt a a
  else if isInf a then a
  else
    let n := magUnits a * 2 ^ 149
    let s := isqrt n
    roundUnits false (2 * s + (if s * s = n then 0 else 1)) 2

/-- The largest F value below π (40_numerics R75, property T4). -/
def belowPi : F := 0x40490FDA#32
/-- `ONE` = 1.0 (40_numerics R79). -/
def oneF : F := 0x3F800000#32
/-- `TWO` = 2.0 (40_numerics R79). -/
def twoF : F := 0x40000000#32
/-- `TWO_PI`, the F value nearest 2π (40_numerics R79). -/
def twoPiF : F := 0x40C90FDB#32

/-- FSIN (40_numerics R74; DESIGN CHOICE, safe, log entry 5) with properties T1, T2, T3 and T4 of R75 by construction: the choice is free but for its sign
where T4 wants a value not below 0. -/
def fsinBits (cfg : Config) (w : F) : F :=
  let t := cfg.sinChoice w
  if isNaN w || isInf w then nanOf cfg .sin w w
  else if isZero w then w
  else if !signBit w && decide (magBits w ≤ belowPi.toNat) then pack (t.neg && t.mag.val == 0) t.mag.val
  else pack t.neg t.mag.val

/-- FCOS (40_numerics R74) with properties T1, T2 and T3 of R75 by construction. -/
def fcosBits (cfg : Config) (w : F) : F :=
  let t := cfg.cosChoice w
  if isNaN w || isInf w then nanOf cfg .cos w w
  else if isZero w then oneF
  else pack t.neg t.mag.val

/-- The instance of the record this spec fixes: binary32, with FSIN, FCOS and NANGEN from the configuration (40_numerics
R65). -/
def binary32 (cfg : Config) : Num :=
  { fadd := faddBits cfg
    fsub := fsubBits cfg
    fmul := fmulBits cfg
    fdiv := fdivBits cfg
    fsqrt := fsqrtBits cfg
    fneg := fnegBits
    fsin := fsinBits cfg
    fcos := fcosBits cfg
    one := oneF
    two := twoF
    twoPi := twoPiF }

end Sys2Proof.Machine
end

