-- ==== Sys2Proof/Machine/Accuracy.lean ====
section
/-! DEFINITION. The accuracy of FSIN and FCOS (40_numerics R76) and the configuration of the modelled block, which has it. The
real value of a pattern is written from the table of R66 and not from the model's arithmetic. -/

namespace Sys2Proof.Machine

/-- The real value of a finite pattern (the table of 40_numerics R66). -/
noncomputable def realValue (a : F) : ℝ :=
  (if signBit a then -1 else 1) *
    (if expField a = 0 then (fracField a : ℝ) * (2 : ℝ) ^ (-149 : ℤ)
      else ((2 : ℝ) ^ 23 + (fracField a : ℝ)) * (2 : ℝ) ^ ((expField a : ℤ) - 150))

/-- The unit in the last place of a real y's binade (40_numerics R76), that of the subnormals at the least. An exact value of
0 has no binade; sine has it at the zeros only, where T1 makes the result exact. -/
noncomputable def ulpOf (y : ℝ) : ℝ := (2 : ℝ) ^ (max (Int.log 2 |y|) (-126) - 23)

/-- Property T5 for a pair of functions with TRIG_ULP = ulps (40_numerics R76). -/
def TrigAccurate (N : Num) (ulps : ℝ) : Prop :=
  ∀ w : F, isFinite w = true → |realValue w| ≤ 8 →
    |realValue (N.fsin w) - Real.sin (realValue w)| ≤ ulps * ulpOf (Real.sin (realValue w)) ∧
      |realValue (N.fcos w) - Real.cos (realValue w)| ≤ ulps * ulpOf (Real.cos (realValue w))

end Sys2Proof.Machine

namespace Sys2Proof

open Sys2Proof.Machine

/-- The configuration's FSIN and FCOS are accurate to its own TRIG_ULP: property T5 (40_numerics R76). -/
def Config.Accurate (cfg : Config) : Prop := TrigAccurate (binary32 cfg) cfg.trigUlp

/-- A configuration that shows that T5 can be met: results of value 0 at every angle but the zeros, and a TRIG_ULP that allows
them. The block's own configuration is not known to be this one. -/
def coarseConfig : Config := { (default : Config) with trigUlp := 2 ^ 150 }

theorem realValue_of_isZero {a : F} (h : isZero a = true) : realValue a = 0 := by
  simp only [isZero, Bool.and_eq_true, beq_iff_eq] at h
  simp [realValue, h.1, h.2]

/-- An accuracy of 2^150 units allows every distance up to 2. -/
theorem le_coarse_ulps (d y : ℝ) (h : d ≤ 2) : d ≤ ((coarseConfig.trigUlp : Rat) : ℝ) * ulpOf y := by
  have hu : (2 : ℝ) ^ (-149 : ℤ) ≤ ulpOf y := zpow_le_zpow_right₀ (by norm_num) (by omega)
  have h2 : (2 : ℝ) = 2 ^ 150 * (2 : ℝ) ^ (-149 : ℤ) := by
    rw [← zpow_natCast (2 : ℝ) 150, ← zpow_add₀ (by norm_num)]
    norm_num
  calc d ≤ 2 ^ 150 * (2 : ℝ) ^ (-149 : ℤ) := h.trans_eq h2
    _ ≤ ((coarseConfig.trigUlp : Rat) : ℝ) * ulpOf y := by
      have hc : ((coarseConfig.trigUlp : Rat) : ℝ) = 2 ^ 150 := by
        rw [show coarseConfig.trigUlp = 2 ^ 150 from rfl]
        push_cast
        rfl
      rw [hc]
      exact mul_le_mul_of_nonneg_left hu (by positivity)

theorem coarseConfig_accurate : coarseConfig.Accurate := by
  intro w hw _
  have hf : (isNaN w || isInf w) = false := by
    simp only [isFinite, bne_iff_ne] at hw
    simp [isNaN, isInf, hw]
  have hsin : realValue (fsinBits coarseConfig w) = 0 := by
    apply realValue_of_isZero
    unfold fsinBits
    rw [hf]
    by_cases hz : isZero w = true
    · simp [hz]
    · simp only [Bool.false_eq_true, if_false, hz]
      split <;> exact (show isZero (pack false 0) = true by decide)
  have hcos : 0 ≤ realValue (fcosBits coarseConfig w) ∧ realValue (fcosBits coarseConfig w) ≤ 1 := by
    unfold fcosBits
    rw [hf]
    by_cases hz : isZero w = true
    · have : realValue oneF = 1 := by
        simp only [realValue, show signBit oneF = false by decide, show expField oneF = 127 by decide,
          show fracField oneF = 0 by decide]
        norm_num
      simp [hz, this]
    · have : realValue (pack (coarseConfig.cosChoice w).neg (coarseConfig.cosChoice w).mag.val) = 0 :=
        realValue_of_isZero (show isZero (pack false 0) = true by decide)
      simp [hz, this]
  have hs := abs_le.1 (Real.abs_sin_le_one (realValue w))
  have hc := abs_le.1 (Real.abs_cos_le_one (realValue w))
  refine ⟨le_coarse_ulps _ _ ?_, le_coarse_ulps _ _ ?_⟩
  · change |realValue (fsinBits coarseConfig w) - _| ≤ 2
    rw [hsin, abs_le]
    constructor <;> linarith
  · change |realValue (fcosBits coarseConfig w) - _| ≤ 2
    rw [abs_le]
    constructor <;> linarith [hcos.1, hcos.2]

/-- The configurations the spec allows: a `Config` has T1 to T4 of 40_numerics R75 by construction, and here it has T5 of R76
as well. -/
structure LegalConfig where
  cfg : Config := coarseConfig
  accurate : cfg.Accurate := by exact coarseConfig_accurate
deriving Inhabited

/-- The block's configuration with its accuracy: OPEN, so it has no body. DESIGN CHOICE (log entries 3, 5 and 6, safe; log
entry 4, unsafe). A claim about the block holds for every legal configuration. -/
opaque Config.legal : LegalConfig

/-- The configuration of the modelled block (00_scope section 4). -/
def Config.machine : Config := Config.legal.cfg

end Sys2Proof

namespace Sys2Proof.Machine

/-- The record of the modelled block (40_numerics R65). -/
def machineNum : Num := binary32 Config.machine

end Sys2Proof.Machine
end

