-- ==== Sys2Proof/Machine/State.lean ====
section
/-! DEFINITION. The state tuple of 10_state R10 as plain data, with the two word sequences of the block's ports
(30_encoding R45), the ways a step can stop, and the state after hardware reset (10_state R21). -/

namespace Sys2Proof.Machine

/-- `COEF`: the six coefficient registers (10_state R11), unnormalised (R12). -/
structure Coef where
  a0 : F
  a1 : F
  a2 : F
  b0 : F
  b1 : F
  b2 : F
deriving DecidableEq, Repr

/-- Three history cells `[0]`, `[1]`, `[2]` of one array of one channel (10_state R16). -/
structure Delay where
  d0 : F
  d1 : F
  d2 : F
deriving DecidableEq, Repr

/-- ChannelHistory of channel c: `x` is `XH[c]`, `y` is `YH[c]` (10_state R16). -/
structure ChannelHistory where
  x : Delay
  y : Delay
deriving DecidableEq, Repr

/-- What the host gives the block, in order: a command word at the command port (30_encoding R45) or a hardware reset,
`rst_n` low (70_reset R145). -/
inductive HostInput where
  | command (w : CmdWord)
  | hwReset
deriving DecidableEq, Repr

/-- The state of one block (10_state R10) and of its ports. -/
structure State where
  /-- `COEF` (10_state R11). -/
  coef : Coef
  /-- `CV`: COEF holds a designed set (10_state R13). -/
  cv : Bool
  /-- `NCH`: the established channel count (10_state R14). -/
  nch : Nat
  /-- `XH[c]`, `YH[c]` for c = 0 .. NCH_MAX-1 (10_state R16); its length is NCH_MAX. DESIGN
  CHOICE, safe (log entry 3). -/
  hist : List ChannelHistory
  /-- `FAULT` (10_state R15). -/
  fault : Bool
  /-- `FCODE` (10_state R15). -/
  fcode : BitVec 4
  /-- The host's inputs not yet taken, oldest first (30_encoding R45). DESIGN CHOICE, safe (log entry 1). -/
  cmdIn : List HostInput
  /-- The responses emitted since the last hardware reset, oldest first (20_memory R38). DESIGN CHOICE,
  safe (log entry 2). -/
  rspOut : List RspWord
  /-- The model's own field: the number of hardware resets so far; it picks the free values of 10_state R21.
  DESIGN CHOICE, unsafe (log entry 4). -/
  resets : Nat
deriving DecidableEq, Repr

/-- How a step can stop. The SPEC's faults are no stops: they are next states with FAULT set (60_exceptions R126). -/
inductive Fault where
  /-- Raised by SMP on a channel c below NCH for which the history store has no slot. 10_state R10 (NCH <= NCH_MAX) rules
  it out, and no legal state reaches it. Safe: the model stops where the hardware cannot be. DESIGN CHOICE
  (log entry 7). -/
  | historySlotAbsent
deriving DecidableEq, Repr

/-- Why an instruction has no meaning. -/
inductive Refusal where
  /-- Raised by an arm of exec whose instruction has no meaning yet; no arm raises it. Safe: the model stops. -/
  | notModelled (mnemonic : String)
deriving DecidableEq, Repr

/-- What COEF holds after the n-th hardware reset: unspecified (10_state R21), a free value. DESIGN CHOICE, unsafe
(log entry 4). -/
def unspecifiedCoef (n : Nat) : Coef :=
  { a0 := Config.machine.unspecified n .a0
    a1 := Config.machine.unspecified n .a1
    a2 := Config.machine.unspecified n .a2
    b0 := Config.machine.unspecified n .b0
    b1 := Config.machine.unspecified n .b1
    b2 := Config.machine.unspecified n .b2 }

/-- What the cells of channel c hold after the n-th hardware reset: free values (10_state R21). DESIGN CHOICE,
unsafe (log entry 4). -/
def unspecifiedSlot (n c : Nat) : ChannelHistory :=
  { x := { d0 := Config.machine.unspecified n (.xh c 0)
           d1 := Config.machine.unspecified n (.xh c 1)
           d2 := Config.machine.unspecified n (.xh c 2) }
    y := { d0 := Config.machine.unspecified n (.yh c 0)
           d1 := Config.machine.unspecified n (.yh c 1)
           d2 := Config.machine.unspecified n (.yh c 2) } }

/-- The slots of the channels c, c+1, ... (slots many) after the n-th hardware reset (10_state R21; log entry 4). -/
def unspecifiedSlots (n c : Nat) : Nat → List ChannelHistory
  | 0 => []
  | slots + 1 => unspecifiedSlot n c :: unspecifiedSlots n (c + 1) slots

/-- The block right after hardware reset (10_state R21, 70_reset R145): CV, NCH, FAULT and FCODE 0, COEF and history
unspecified, no response outstanding, and no input given yet. -/
def State.reset : State :=
  { coef := unspecifiedCoef 0
    cv := false
    nch := 0
    hist := unspecifiedSlots 0 0 Config.machine.nchMax
    fault := false
    fcode := 0
    cmdIn := []
    rspOut := []
    resets := 1 }

end Sys2Proof.Machine
end

