-- ==== Sys2Proof/Machine/Design.lean ====
section
/-! DEFINITION. filter_coefficient_generator: the pure function `design` (42_design_ops R90) and the five shapes (R92 to
R96), operation by operation as the rules spell them out, one rounding each (40_numerics R71). It checks nothing (R97). -/

namespace Sys2Proof.Machine

/-- The shared intermediate terms of 42_design_ops R90. -/
structure SharedTerms where
  cw : F
  alpha : F
deriving DecidableEq, Repr

/-- `w0 = 2π · frequency_hz / sample_rate` (42_design_ops R90). -/
def designW0 (N : Num) (fs freq : F) : F := N.fdiv (N.fmul N.twoPi freq) fs

/-- `cw = FCOS(w0)`, `sw = FSIN(w0)`, `alpha = sin(w0) / (2 · q)` (42_design_ops R90). -/
def sharedTerms (N : Num) (fs freq q : F) : SharedTerms :=
  let w0 := designW0 N fs freq
  { cw := N.fcos w0
    alpha := N.fdiv (N.fsin w0) (N.fmul N.two q) }

/-- The shape Peak (42_design_ops R92). -/
def designPeak (N : Num) (fs freq gain q : F) : Coef :=
  let t := sharedTerms N fs freq q
  let A := N.fsqrt gain
  let aoa := N.fdiv t.alpha A
  let ama := N.fmul t.alpha A
  { a0 := N.fadd N.one aoa
    a1 := N.fneg (N.fmul N.two t.cw)
    a2 := N.fsub N.one aoa
    b0 := N.fadd N.one ama
    b1 := N.fneg (N.fmul N.two t.cw)
    b2 := N.fsub N.one ama }

/-- The shape HighPass; it reads no gain (42_design_ops R93). -/
def designHp (N : Num) (fs freq q : F) : Coef :=
  let t := sharedTerms N fs freq q
  let p := N.fadd N.one t.cw
  { a0 := N.fadd N.one t.alpha
    a1 := N.fneg (N.fmul N.two t.cw)
    a2 := N.fsub N.one t.alpha
    b0 := N.fdiv p N.two
    b1 := N.fneg p
    b2 := N.fdiv p N.two }

/-- The shape LowPass; it reads no gain (42_design_ops R94). -/
def designLp (N : Num) (fs freq q : F) : Coef :=
  let t := sharedTerms N fs freq q
  let m := N.fsub N.one t.cw
  { a0 := N.fadd N.one t.alpha
    a1 := N.fneg (N.fmul N.two t.cw)
    a2 := N.fsub N.one t.alpha
    b0 := N.fdiv m N.two
    b1 := m
    b2 := N.fdiv m N.two }

/-- The terms both shelves use: A, A-1 (`am1`), (A+1)cosw0 (`tp`), 2√(Aα) (`s`), (A+1)+(A-1)cosw0 (`u`) and (A+1)-(A-1)cosw0
(`v`) (42_design_ops R95). -/
structure ShelfTerms where
  A : F
  am1 : F
  tp : F
  s : F
  u : F
  v : F
deriving DecidableEq, Repr

/-- The shelf terms of 42_design_ops R95, which R96 uses too. -/
def shelfTerms (N : Num) (fs freq gain q : F) : ShelfTerms :=
  let t := sharedTerms N fs freq q
  let A := N.fsqrt gain
  let ap1 := N.fadd A N.one
  let am1 := N.fsub A N.one
  let tm := N.fmul am1 t.cw
  { A := A
    am1 := am1
    tp := N.fmul ap1 t.cw
    s := N.fmul N.two (N.fsqrt (N.fmul A t.alpha))
    u := N.fadd ap1 tm
    v := N.fsub ap1 tm }

/-- The shape LowShelf (42_design_ops R95). -/
def designLs (N : Num) (fs freq gain q : F) : Coef :=
  let t := shelfTerms N fs freq gain q
  { a0 := N.fadd t.u t.s
    a1 := N.fneg (N.fmul N.two (N.fadd t.am1 t.tp))
    a2 := N.fsub t.u t.s
    b0 := N.fmul t.A (N.fadd t.v t.s)
    b1 := N.fmul (N.fmul N.two t.A) (N.fsub t.am1 t.tp)
    b2 := N.fmul t.A (N.fsub t.v t.s) }

/-- The shape HighShelf (42_design_ops R96). -/
def designHs (N : Num) (fs freq gain q : F) : Coef :=
  let t := shelfTerms N fs freq gain q
  { a0 := N.fadd t.v t.s
    a1 := N.fmul N.two (N.fsub t.am1 t.tp)
    a2 := N.fsub t.v t.s
    b0 := N.fmul t.A (N.fadd t.u t.s)
    b1 := N.fmul (N.fneg (N.fmul N.two t.A)) (N.fadd t.am1 t.tp)
    b2 := N.fmul t.A (N.fsub t.u t.s) }

/-- `design(ft, fs, freq, gain, q)` (42_design_ops R90): the coefficients, not divided by a0. -/
def design (N : Num) (ft : FilterType) (fs freq gain q : F) : Coef :=
  match ft with
  | .peak => designPeak N fs freq gain q
  | .highPass => designHp N fs freq q
  | .lowPass => designLp N fs freq q
  | .lowShelf => designLs N fs freq gain q
  | .highShelf => designHs N fs freq gain q

end Sys2Proof.Machine
end

