-- ==== Sys2Proof/Machine/Flags.lean ====
section
/-! DEFINITION. The block's only status bits. There are no condition codes, no arithmetic flags and no floating-point
exception flags (10_state R18, 40_numerics R72): CV, and FAULT with its cause code FCODE. -/

namespace Sys2Proof.Machine

/-- The complete list of fault causes (60_exceptions R127). -/
inductive Cause where
  /-- The word matches no row of the opcode table (60_exceptions R129). -/
  | illegalCmd
  /-- SMP with `CH >= NCH` (60_exceptions R128). -/
  | chanRange
  /-- SMP with `CH < NCH` and `CV = 0` (60_exceptions R130). -/
  | noCoef
  /-- INIT with `CH > NCH_MAX` (60_exceptions R131). -/
  | chanCount
deriving DecidableEq, Repr

/-- The 4-bit code of a cause (60_exceptions R127). -/
def causeCode : Cause → BitVec 4
  | .illegalCmd => 1
  | .chanRange => 2
  | .noCoef => 3
  | .chanCount => 4

/-- `FAULT <- 1; FCODE <- code` (60_exceptions R126). -/
def setFault (c : Cause) (s : State) : State := { s with fault := true, fcode := causeCode c }

/-- The output pin `fault`, a level equal to FAULT (30_encoding R57). -/
def faultPin (s : State) : Bool := s.fault

/-- `COEF <- k; CV <- 1` in one step (42_design_ops R91). -/
def setCoef (k : Coef) (s : State) : State := { s with coef := k, cv := true }

end Sys2Proof.Machine
end

