-- ==== Sys2Proof/Machine/Operands.lean ====
section
/-! DEFINITION. Operand forms. F operands are the raw patterns the decoder hands over (30_encoding R52: no conversion); the
channel operand is an exact natural, compared and used as an array index and nothing else (40_numerics R81). -/

namespace Sys2Proof.Machine

/-- NCH_MAX: "number of channel-history slots the block has storage for" (00_scope section 4). DESIGN CHOICE,
safe (log entry 3). -/
def nchMax (s : State) : Nat := s.hist.length

/-- INIT's bound check: the count n can be established unless `n > NCH_MAX` (41_config_ops R85). -/
def countFits (n : Nat) (s : State) : Bool := n ≤ nchMax s

/-- SMP's bound check: c is in range unless `c >= NCH` (43_sample_ops R110); never wrapped or truncated (20_memory R35). -/
def channelInRange (c : Nat) (s : State) : Bool := c < s.nch

/-- `XH[c]` and `YH[c]` (20_memory R31); none where the store has no slot c. -/
def channel (c : Nat) (s : State) : Option ChannelHistory := s.hist[c]?

/-- Writes the six cells of channel c and of no other channel (20_memory R34). -/
def setChannel (c : Nat) (h : ChannelHistory) (s : State) : State := { s with hist := s.hist.set c h }

/-- One of the three cells of an array by its index k = 0, 1, 2; none elsewhere (20_memory R31). -/
def delayCell (d : Delay) : Nat → Option F
  | 0 => some d.d0
  | 1 => some d.d1
  | 2 => some d.d2
  | _ + 3 => none

/-- The cell `XH[c][k]` (20_memory R31). -/
def cellX (s : State) (c k : Nat) : Option F := (channel c s).bind fun h => delayCell h.x k

/-- The cell `YH[c][k]` (20_memory R31). -/
def cellY (s : State) (c k : Nat) : Option F := (channel c s).bind fun h => delayCell h.y k

/-- An array of three cells, each +0 (41_config_ops R85). -/
def zeroDelay : Delay := { d0 := 0, d1 := 0, d2 := 0 }

/-- The history of a newly established channel (41_config_ops R85). -/
def zeroHistory : ChannelHistory := { x := zeroDelay, y := zeroDelay }

/-- `XH[c][k] <- +0; YH[c][k] <- +0` for every c in 0 .. NCH_MAX-1 and k in 0 .. 2 (41_config_ops R85). -/
def zeroAllHistory (s : State) : State := { s with hist := List.replicate (nchMax s) zeroHistory }

/-- `NCH <- n` (41_config_ops R85). -/
def setNch (n : Nat) (s : State) : State := { s with nch := n }

end Sys2Proof.Machine
end

