-- ==== Sys2Proof/Machine/Ops.lean ====
section
/-! DEFINITION. The operations every command shares: emitting a response (30_encoding R55), raising a fault (60_exceptions
R126), answering in the fault state (60_exceptions R125), and the one way out of it, hardware reset (70_reset R145). -/

namespace Sys2Proof.Machine

/-- A response before it is laid out (30_encoding R55). -/
inductive Response where
  | ack
  | data (c : Nat) (v : F)
  | err (code : BitVec 4)
deriving DecidableEq, Repr

/-- `KIND` 44-bit layout: the word with fields `KIND[43:40]`, `CH[39:32]`, `DATA[31:0]` (30_encoding R55). -/
def rspLayout (kind : BitVec 4) (ch : BitVec 8) (d : BitVec 32) : RspWord := kind ++ ch ++ d

/-- The response word (30_encoding R55). -/
def rspWord : Response → RspWord
  | .ack => rspLayout 1 0 0
  | .data c v => rspLayout 2 (BitVec.ofNat 8 c) (bitsF v)
  | .err code => rspLayout 15 0 (code.setWidth 32)

/-- `respond K(ch, d)`: the word leaves the response port after those before it (20_memory R38). -/
def respond (r : Response) (s : State) : State := { s with rspOut := s.rspOut ++ [rspWord r] }

/-- The host's inputs left once one is taken (30_encoding R45). -/
def setInputs (inputs : List HostInput) (s : State) : State := { s with cmdIn := inputs }

/-- TAKING AN EXCEPTION: `raise Fault(code)` (60_exceptions R126). FAULT and FCODE are written, nothing else, and the one
response is `ERR(0, code)`. There is no vector, no saved state and no handler (60_exceptions R125). -/
def raiseFault (c : Cause) (s : State) : Host.Outcome State Fault Refusal :=
  .next (respond (.err (causeCode c)) (setFault c s))

/-- What a command meets while `FAULT = 1`: `ERR(0, FCODE)` and no state change (60_exceptions R125). -/
def answerFaulted (s : State) : Host.Outcome State Fault Refusal :=
  .next (respond (.err s.fcode) s)

/-- The first check of every command (30_encoding R46, 60_exceptions R134): in the fault state the answer of R125, else the
command's own pseudocode, which is "entered only with FAULT = 0". -/
def whenLive (s : State) (body : Host.Outcome State Fault Refusal) : Host.Outcome State Fault Refusal :=
  if s.fault then answerFaulted s else body

/-- LEAVING THE FAULT STATE. There is no return from a fault (60_exceptions R136); hardware reset is the only way out
(70_reset R145). CV, NCH, FAULT, FCODE are 0; COEF and history are unspecified, fresh free values (10_state R21; DESIGN
CHOICE, unsafe, log entry 4); responses are dropped (DESIGN CHOICE, safe, log entry 2). NCH_MAX and the host's later
inputs are not the block's to change. -/
def hardwareReset (s : State) : State :=
  { coef := unspecifiedCoef s.resets
    cv := false
    nch := 0
    hist := unspecifiedSlots s.resets 0 (nchMax s)
    fault := false
    fcode := 0
    cmdIn := s.cmdIn
    rspOut := []
    resets := s.resets + 1 }

end Sys2Proof.Machine
end

