-- ==== Sys2Proof/Machine/Begin.lean ====
section
/-! DEFINITION. The five BEGIN commands (42_design_ops R91 to R96). -/

namespace Sys2Proof.Machine

/-- The common execution of every BEGIN (42_design_ops R91): COEF and CV in one step, ACK; no fault, for any operands. -/
def beginWith (ft : FilterType) (fs freq gain q : F) (s : State) : Host.Outcome State Fault Refusal :=
  whenLive s (.next (respond .ack (setCoef (design machineNum ft fs freq gain q) s)))

/-- `BEGIN.PEAK` (42_design_ops R91, R92). -/
def execBeginPeak (fs freq gain q : F) (s : State) : Host.Outcome State Fault Refusal :=
  beginWith .peak fs freq gain q s

/-- `BEGIN.HP` (42_design_ops R91, R93). -/
def execBeginHp (fs freq gain q : F) (s : State) : Host.Outcome State Fault Refusal :=
  beginWith .highPass fs freq gain q s

/-- `BEGIN.LP` (42_design_ops R91, R94). -/
def execBeginLp (fs freq gain q : F) (s : State) : Host.Outcome State Fault Refusal :=
  beginWith .lowPass fs freq gain q s

/-- `BEGIN.LS` (42_design_ops R91, R95). -/
def execBeginLs (fs freq gain q : F) (s : State) : Host.Outcome State Fault Refusal :=
  beginWith .lowShelf fs freq gain q s

/-- `BEGIN.HS` (42_design_ops R91, R96). -/
def execBeginHs (fs freq gain q : F) (s : State) : Host.Outcome State Fault Refusal :=
  beginWith .highShelf fs freq gain q s

end Sys2Proof.Machine
end

