-- ==== Sys2Proof/Machine/Init.lean ====
section
/-! DEFINITION. The configuration command INIT (41_config_ops R85). -/

namespace Sys2Proof.Machine

/-- `INIT n` (41_config_ops R85): CHAN_COUNT when `n > NCH_MAX`, else every history cell +0, `NCH <- n`, ACK. -/
def execInit (n : Nat) (s : State) : Host.Outcome State Fault Refusal :=
  whenLive s (if countFits n s then .next (respond .ack (setNch n (zeroAllHistory s))) else raiseFault .chanCount s)

end Sys2Proof.Machine
end

