-- ==== Sys2Proof/Machine/Sample.lean ====
section
/-! DEFINITION. The sample command SMP and the direct-form-I recurrence (43_sample_ops R110, R111). -/

namespace Sys2Proof.Machine

/-- `b0·x0 + b1·x1 + b2·x2 − a1·y1 − a2·y2`, accumulated left to right: five products, four sums (43_sample_ops R111, step
3). -/
def accumulate (N : Num) (k : Coef) (X : Delay) (y1 y2 : F) : F :=
  let t0 := N.fmul k.b0 X.d0
  let t1 := N.fmul k.b1 X.d1
  let t2 := N.fmul k.b2 X.d2
  let t3 := N.fmul k.a1 y1
  let t4 := N.fmul k.a2 y2
  N.fsub (N.fsub (N.fadd (N.fadd t0 t1) t2) t3) t4

/-- `x[2]=x[1]; x[1]=x[0]; x[0]=input_sample` (43_sample_ops R111, step 1). -/
def shiftIn (d : Delay) (x : F) : Delay := { d0 := x, d1 := d.d0, d2 := d.d1 }

/-- `step(COEF, X, Y, x)` (43_sample_ops R111): shift both arrays, accumulate, divide once by A0, store the output in `Y[0]`.
It answers the channel's new history and the output. -/
def recurrence (N : Num) (k : Coef) (h : ChannelHistory) (x : F) : ChannelHistory × F :=
  let X := shiftIn h.x x
  let out := N.fdiv (accumulate N k X h.y.d0 h.y.d1) k.a0
  ({ x := X, y := shiftIn h.y out }, out)

/-- `SMP c, x` (43_sample_ops R110): CHAN_RANGE, then NO_COEF, else the recurrence on channel c and `DATA(c, out)`. -/
def execSmp (c : Nat) (x : F) (s : State) : Host.Outcome State Fault Refusal :=
  whenLive s
    (if channelInRange c s then
      if s.cv then
        match channel c s with
        | none => .fault .historySlotAbsent
        | some h =>
          let r := recurrence machineNum s.coef h x
          .next (respond (.data c r.2) (setChannel c r.1 s))
      else raiseFault .noCoef s
    else raiseFault .chanRange s)

end Sys2Proof.Machine
end

