-- ==== Sys2Proof/Machine/Dispatch.lean ====
section
/-! DEFINITION. What each instruction does: one arm for each constructor (30_encoding R46, on decoded commands). -/

namespace Sys2Proof.Machine

def exec (i : Instr) (s : State) : Host.Outcome State Fault Refusal :=
  match i with
  | .init n => Sys2Proof.Machine.execInit n s
  | .beginPeak fs freq gain q => Sys2Proof.Machine.execBeginPeak fs freq gain q s
  | .beginHp fs freq gain q => Sys2Proof.Machine.execBeginHp fs freq gain q s
  | .beginLp fs freq gain q => Sys2Proof.Machine.execBeginLp fs freq gain q s
  | .beginLs fs freq gain q => Sys2Proof.Machine.execBeginLs fs freq gain q s
  | .beginHs fs freq gain q => Sys2Proof.Machine.execBeginHs fs freq gain q s
  | .smp c x => Sys2Proof.Machine.execSmp c x s

end Sys2Proof.Machine
end

