-- ==== Sys2Proof/Machine/Port.lean ====
section
/-! DEFINITION. The command port (30_encoding R45, R46): what the block does with the host's next input. -/

namespace Sys2Proof.Machine

/-- `exec(S, CMD)` on a command word (30_encoding R46): in the fault state the answer of 60_exceptions R125, before the word
is decoded (R134, R136); else the decoded instruction, or `Fault(ILLEGAL_CMD)` (60_exceptions R129). -/
def acceptWord (w : CmdWord) (s : State) : Host.Outcome State Fault Refusal :=
  whenLive s
    (match decode w with
    | .ok i => exec i s
    | .error _ => raiseFault .illegalCmd s)

/-- One step of the block: it takes the host's oldest input and serves it to completion (20_memory R37). With no input it
holds its state, for any length of time (60_exceptions R140). -/
def portStep (s : State) : Host.Outcome State Fault Refusal :=
  match s.cmdIn with
  | [] => .next s
  | .command w :: rest => acceptWord w (setInputs rest s)
  | .hwReset :: rest => .next (hardwareReset (setInputs rest s))

/-- The command word the host's question stands for: the table's number is the word (20_memory R32). -/
def tableWord (nbits w : Nat) : CmdWord := BitVec.ofNat 144 (w % 2 ^ nbits)

end Sys2Proof.Machine
end

