-- ==== Sys2Proof/Machine/Step.lean ====
section
/-! DEFINITION. The step function, and placing an instruction where the next step takes it. -/

namespace Sys2Proof.Machine

/-- One step of the block (`portStep`). -/
def step (s : State) : Host.Outcome State Fault Refusal := Sys2Proof.Machine.portStep s

/-- The state with one more command in front of the host's inputs, so that the next step takes exactly it. A command word is
pushed from outside the machine; this stands for that push. DESIGN CHOICE, safe (log entry 1). -/
def State.withFetchWord (s : State) (nbits w : Nat) : State :=
  { s with cmdIn := HostInput.command (Sys2Proof.Machine.tableWord nbits w) :: s.cmdIn }

end Sys2Proof.Machine
end

