-- ==== Sys2Proof/Machine/Macros.lean ====
section
/-! DEFINITION. The pseudo-instructions of 30_encoding R60, as lists of commands, and what the sample stream provider does
with a response (20_memory R43). The host uses them; the block never sees them. -/

namespace Sys2Proof.Machine

/-- The provider's buffer of N channels × M frames: `buf[c][m]` (20_memory R43). -/
abbrev Buffer := List (List F)

/-- `BEGIN.T fs, freq, gain, q` for a filter type (30_encoding R51, R58). -/
def beginInstr (ft : FilterType) (fs freq gain q : F) : Instr :=
  match ft with
  | .peak => .beginPeak fs freq gain q
  | .highPass => .beginHp fs freq gain q
  | .lowPass => .beginLp fs freq gain q
  | .lowShelf => .beginLs fs freq gain q
  | .highShelf => .beginHs fs freq gain q

/-- `SMP c, buf[c][m]`, where the buffer has that slot. -/
def smpOfSlot (buf : Buffer) (slot : Nat × Nat) : Option Instr :=
  ((buf[slot.1]?).bind fun row => row[slot.2]?).map fun x => .smp slot.1 x

/-- The slots (c, m) of N channels × M frames, channel by channel (30_encoding R60, PROCESS.CM). -/
def slotsChannelMajor (n m : Nat) : List (Nat × Nat) :=
  (List.range n).flatMap fun c => (List.range m).map fun k => (c, k)

/-- The slots (c, m) of N channels × M frames, frame by frame (30_encoding R60, PROCESS.FM). -/
def slotsFrameMajor (n m : Nat) : List (Nat × Nat) :=
  (List.range m).flatMap fun k => (List.range n).map fun c => (c, k)

/-- `PROCESS.CM T, fs, freq, gain, q, buf` on N channels × M frames (30_encoding R60). -/
def processCM (ft : FilterType) (fs freq gain q : F) (n m : Nat) (buf : Buffer) : List Instr :=
  beginInstr ft fs freq gain q :: (slotsChannelMajor n m).filterMap (smpOfSlot buf)

/-- `PROCESS.FM T, fs, freq, gain, q, buf` on N channels × M frames (30_encoding R60). -/
def processFM (ft : FilterType) (fs freq gain q : F) (n m : Nat) (buf : Buffer) : List Instr :=
  beginInstr ft fs freq gain q :: (slotsFrameMajor n m).filterMap (smpOfSlot buf)

/-- `CONFIGURE N = INIT N` (30_encoding R60). -/
def configure (n : Nat) : List Instr := [.init n]

/-- What the provider does with the response to the SMP of a slot: a DATA response's 32 bits go back into the slot; on an
ERR response "the slot keeps its input value" (20_memory R43). -/
def storeResponse (buf : Buffer) (slot : Nat × Nat) (r : RspWord) : Buffer :=
  if r.extractLsb' 40 4 = 2#4 then buf.modify slot.1 fun row => row.set slot.2 (ofBits (r.extractLsb' 0 32)) else buf

end Sys2Proof.Machine
end

