-- ==== Sys2Proof/Machine/Assembly.lean ====
section
/-! DEFINITION. The textual form of a command (30_encoding R58, R59), read from a list of characters. Where the rules are
silent (blanks, an empty line) log entry 10 (DESIGN CHOICE, safe for the block)
says what is read. -/

namespace Sys2Proof.Machine

/-- The text less the blanks at both ends. -/
def trimBlanks (cs : List Char) : List Char :=
  ((cs.dropWhile (· == ' ')).reverse.dropWhile (· == ' ')).reverse

/-- The pieces of the text between the characters equal to sep. -/
def splitAtChar (sep : Char) (cs : List Char) : List (List Char) :=
  cs.foldr (fun ch acc => if ch == sep then [] :: acc else (ch :: acc.headD []) :: acc.tail) [[]]

/-- The value of a decimal digit. -/
def decDigit (ch : Char) : Option Nat :=
  if 48 ≤ ch.toNat ∧ ch.toNat ≤ 57 then some (ch.toNat - 48) else none

/-- The value of a hexadecimal digit, of either case. -/
def hexDigit (ch : Char) : Option Nat :=
  if 48 ≤ ch.toNat ∧ ch.toNat ≤ 57 then some (ch.toNat - 48)
  else if 65 ≤ ch.toNat ∧ ch.toNat ≤ 70 then some (ch.toNat - 55)
  else if 97 ≤ ch.toNat ∧ ch.toNat ≤ 102 then some (ch.toNat - 87)
  else none

/-- The number written by digits in a base, most significant first, going on from acc; none where a character is no digit. -/
def numberFrom (digit : Char → Option Nat) (base : Nat) : Nat → List Char → Option Nat
  | acc, [] => some acc
  | acc, ch :: rest => (digit ch).bind fun d => numberFrom digit base (acc * base + d) rest

/-- A decimal integer of at least one digit. -/
def decNumber (cs : List Char) : Option Nat :=
  if cs.isEmpty then none else numberFrom decDigit 10 0 cs

/-- A channel operand: a decimal integer 0 .. 255 (30_encoding R58). -/
def parseCh (cs : List Char) : Option Nat :=
  (decNumber cs).filter fun n => decide (fitsCh n)

/-- The binary32 value nearest to the decimal `± digits / 10^scale`, ties to even (30_encoding R59). -/
def decimalF (neg : Bool) (digits scale : Nat) : F :=
  if digits = 0 then zeroF neg else roundUnits neg (digits * 2 ^ 149) (10 ^ scale)

/-- A decimal literal without its sign: digits, or digits, a point and digits (30_encoding R59). -/
def parseDecimal (neg : Bool) (cs : List Char) : Option F :=
  match splitAtChar '.' cs with
  | [whole] => (decNumber whole).map fun n => decimalF neg n 0
  | [whole, frac] =>
    (decNumber whole).bind fun n =>
      if frac.isEmpty then none
      else (numberFrom decDigit 10 n frac).map fun all => decimalF neg all frac.length
  | _ => none

/-- An F operand: `0x` and exactly eight hexadecimal digits, a decimal literal, `inf` or `-inf` (30_encoding R59). -/
def parseF (cs : List Char) : Option F :=
  match cs with
  | '0' :: 'x' :: hex =>
    if hex.length = 8 then (numberFrom hexDigit 16 0 hex).map fun n => ofBits (BitVec.ofNat 32 n) else none
  | ['i', 'n', 'f'] => some (infF false)
  | ['-', 'i', 'n', 'f'] => some (infF true)
  | '-' :: rest => parseDecimal true rest
  | _ => parseDecimal false cs

/-- The mnemonic suffix of a filter type (30_encoding R51). -/
def parseType (cs : List Char) : Option FilterType :=
  match cs with
  | ['P', 'E', 'A', 'K'] => some .peak
  | ['H', 'P'] => some .highPass
  | ['L', 'P'] => some .lowPass
  | ['L', 'S'] => some .lowShelf
  | ['H', 'S'] => some .highShelf
  | _ => none

/-- A command from its mnemonic and its operands (30_encoding R58). -/
def parseCommand (mnem : List Char) (ops : List (List Char)) : Option Instr :=
  match mnem, ops with
  | ['I', 'N', 'I', 'T'], [n] => (parseCh n).map Instr.init
  | ['S', 'M', 'P'], [c, x] => (parseCh c).bind fun c' => (parseF x).map fun x' => .smp c' x'
  | 'B' :: 'E' :: 'G' :: 'I' :: 'N' :: '.' :: suffix, [fs, freq, gain, q] =>
    (parseType suffix).bind fun ft =>
      (parseF fs).bind fun fs' => (parseF freq).bind fun freq' =>
        (parseF gain).bind fun gain' => (parseF q).map fun q' => beginInstr ft fs' freq' gain' q'
  | _, _ => none

/-- One line of text: none where it is no line of 30_encoding R58, `some none` for a line that holds no command. -/
def assembleLine (cs : List Char) : Option (Option Instr) :=
  let text := trimBlanks (cs.takeWhile (· != ';'))
  if text.isEmpty then some none
  else
    let mnem := text.takeWhile (· != ' ')
    let ops := (splitAtChar ',' (text.dropWhile (· != ' '))).map trimBlanks
    (parseCommand mnem ops).map some

end Sys2Proof.Machine
end

