-- ==== Sys2Proof/Machine/Reference.lean ====
section
/-! DEFINITION. The reference instance REF of FSIN and FCOS: the exact sine or cosine rounded once (40_numerics R77), as
functions that can be evaluated, so that the vectors of 95_test_vectors can be computed. The block does not use them:
its FSIN and FCOS stay open (R74). They are computed in 1024-bit fixed point: the angle is halved 136 times (an F value is
below 2^128), the series summed, and sine and cosine doubled back up. UNVERIFIED (log entry 8, safe for the
block): that 1024 bits always
round right is not proved. -/

namespace Sys2Proof.Machine

/-- The fraction bits of the fixed-point numbers here. -/
def refBits : Nat := 1024
/-- How often the angle is halved before the series is summed. -/
def refHalvings : Nat := 136

/-- The sum `acc` plus the next terms of the series, `term · -t² / ((n+1)(n+2))` each time; t2 is t² in fixed point. -/
def refSeries (t2 : Int) : Nat → Nat → Int → Int → Int
  | 0, _, _, acc => acc
  | k + 1, n, term, acc =>
    let next := -(term * t2 / 2 ^ refBits) / (((n + 1) * (n + 2) : Nat) : Int)
    refSeries t2 k (n + 2) next (acc + next)

/-- Sine and cosine of twice the angle, k times over. -/
def refDouble : Nat → Int × Int → Int × Int
  | 0, p => p
  | k + 1, p => refDouble k (2 * p.1 * p.2 / 2 ^ refBits, 2 ^ refBits - 2 * p.1 * p.1 / 2 ^ refBits)

/-- Sine and cosine, in fixed point, of the finite value w. -/
def refSinCos (w : F) : Int × Int :=
  let t := units w * 2 ^ (refBits - 149 - refHalvings)
  let t2 := t * t / 2 ^ refBits
  refDouble refHalvings (refSeries t2 40 1 t t, refSeries t2 40 0 (2 ^ refBits) (2 ^ refBits))

/-- A fixed-point number in -1 .. 1 rounded to F (40_numerics R67), as a choice of sign and magnitude. -/
def refChoice (v : Int) : TrigChoice :=
  { neg := decide (v < 0)
    mag := Fin.ofNat 1065353217
      (if v = 0 then 0 else min (magBits (roundUnits false (v.natAbs * 2 ^ 149) (2 ^ refBits))) oneF.toNat) }

/-- The configuration with its sine and cosine replaced by the reference instance, for which TRIG_ULP is 1 (40_numerics R77). -/
def withRef (cfg : Config) : Config :=
  { cfg with
    sinChoice := fun w => refChoice (refSinCos w).1
    cosChoice := fun w => refChoice (refSinCos w).2
    trigUlp := 1 }

end Sys2Proof.Machine
end

