-- ==== Sys2Proof/Safety.lean ====
section
/-! DEFINITION. The terms statements use: which states are legal (10_state R10, R14, R15), how a run ends (70_reset R157),
what it is for a pattern to be `round(r)` (40_numerics R67), and what can be observed of a state (10_state R21, R23). -/

namespace Sys2Proof.Machine

/-- The legal states: 1 <= NCH_MAX <= 255 (00_scope section 4), NCH <= NCH_MAX (10_state R14), FCODE 0 without a fault and
1 .. 4 with one (10_state R15). -/
abbrev State.Legal (s : State) : Prop :=
  1 ≤ nchMax s ∧ nchMax s ≤ 255 ∧ s.nch ≤ nchMax s ∧
    (s.fault = false → s.fcode = 0) ∧ (s.fault = true → 1 ≤ s.fcode.toNat ∧ s.fcode.toNat ≤ 4)

/-- A run is over when the host offers no further input (70_reset R157). -/
abbrev State.RunOver (s : State) : Prop := s.cmdIn = []

/-- A run is good when `FAULT = 0` at its end (70_reset R157). -/
abbrev State.GoodEnd (s : State) : Prop := s.RunOver ∧ s.fault = false

/-- `v >= 0` on values: not a NaN, and a zero of either sign or of positive sign (40_numerics R66, R73). -/
def nonnegF (v : F) : Bool := !isNaN v && (isZero v || !signBit v)

/-- `v > 0` on values, +inf included (40_numerics R66). -/
def positiveF (v : F) : Bool := !isNaN v && !isZero v && !signBit v

/-- `v >= 1` on values, +inf included (40_numerics R66): positive patterns are ordered as their values. -/
def atLeastOneF (v : F) : Bool := !isNaN v && !signBit v && decide (oneF.toNat ≤ magBits v)

/-- The pattern b is `round(r)` (40_numerics R67): the infinity of r's sign from half a unit beyond the largest finite value
on; else the nearest finite value, the even pattern of two equally near, with r's sign where that value is zero. -/
def IsRounded (r : ℝ) (b : F) : Prop :=
  if ((2 : ℝ) ^ 25 - 1) * (2 : ℝ) ^ 103 ≤ |r| then isInf b = true ∧ (signBit b = true ↔ r < 0)
  else
    isFinite b = true ∧ (signBit b = true ↔ r < 0) ∧
      ∀ v : F, isFinite v = true →
        |realValue b - r| ≤ |realValue v - r| ∧
          (|realValue b - r| = |realValue v - r| → realValue v ≠ realValue b → b.getLsbD 0 = false)

/-- Two patterns that are no NaN have one value: the same pattern, or both zeros (40_numerics R66). -/
def SameValue (a b : F) : Prop := isNaN a = false ∧ isNaN b = false ∧ (a = b ∨ (isZero a = true ∧ isZero b = true))

/-- Two delay lines agree on the cells `[0]` and `[1]`, the ones that are live between commands (10_state R23). -/
abbrev Delay.SameLive (d e : Delay) : Prop := d.d0 = e.d0 ∧ d.d1 = e.d1

/-- Two channels' histories agree on their live cells (10_state R23). -/
abbrev ChannelHistory.SameLive (g h : ChannelHistory) : Prop := g.x.SameLive h.x ∧ g.y.SameLive h.y

/-- Two states agree on everything the responses can depend on (10_state R21, R23): CV, NCH, FAULT, FCODE, NCH_MAX, the
inputs and the responses; COEF where CV = 1; the live history cells of the established channels. -/
def State.SameObservable (s t : State) : Prop :=
  s.cv = t.cv ∧ s.nch = t.nch ∧ s.fault = t.fault ∧ s.fcode = t.fcode ∧ nchMax s = nchMax t ∧
    s.cmdIn = t.cmdIn ∧ s.rspOut = t.rspOut ∧ (s.cv = true → s.coef = t.coef) ∧
      ∀ c, c < s.nch → ∀ g h, channel c s = some g → channel c t = some h → g.SameLive h

/-- The instructions of a list, one after the other, stopping at the first fault or refusal (20_memory R37). -/
def execAll : List Instr → State → Host.Outcome State Fault Refusal
  | [], s => .next s
  | i :: rest, s =>
    match exec i s with
    | .next t => execAll rest t
    | .fault r => .fault r
    | .refused r => .refused r

/-- k steps, stopping at the first fault or refusal (00_scope R9). -/
def runSteps : Nat → State → Host.Outcome State Fault Refusal
  | 0, s => .next s
  | k + 1, s =>
    match step s with
    | .next t => runSteps k t
    | .fault r => .fault r
    | .refused r => .refused r

/-- The state with the responses put aside: what "the same final state" compares (20_memory R39). -/
def State.quiet (s : State) : State := { s with rspOut := [] }

/-- The response words of kind DATA, in order (30_encoding R55). -/
def dataWords (l : List RspWord) : List RspWord := l.filter fun r => r.extractLsb' 40 4 == 2#4

end Sys2Proof.Machine
end

