-- ==== Sys2Proof/Certificates/Slice0/Obligations.lean ====
section
/-! DEFINITION. The statements for the provers, from the numbered rules of the spec, file by file. -/

open Sys2Proof Sys2Proof.Machine

/-- 10_state R21, 70_reset R145: CV, NCH, FAULT and FCODE are 0 and the pin `fault` is 0 after hardware reset, and no
response is outstanding. That the store has `Config.machine.nchMax` slots is log entry 3. -/
def Obligations.ResetLeavesStatusZero : Prop :=
  State.reset.cv = false ∧ State.reset.nch = 0 ∧ State.reset.fault = false ∧ State.reset.fcode = 0 ∧
    faultPin State.reset = false ∧ State.reset.rspOut = [] ∧ nchMax State.reset = Config.machine.nchMax

/-- The reset state is legal: 1 <= NCH_MAX <= 255, NCH <= NCH_MAX, FCODE 0 without a fault (10_state R10, R14, R15). -/
def Obligations.ResetStateLegal : Prop := State.reset.Legal

/-- Every step keeps the legal states and NCH_MAX (10_state R10, R14, R15). -/
def Obligations.StepKeepsLegal : Prop :=
  ∀ s t : State, s.Legal → step s = .next t → t.Legal ∧ nchMax t = nchMax s

/-- 30_encoding R46: in a legal state every step answers a next state; the block never stops (70_reset R156). -/
def Obligations.LegalStepAnswers : Prop := ∀ s : State, s.Legal → ∃ t, step s = .next t

/-- 30_encoding R56: a command produces exactly one response, ERR where FAULT is 1 after it, else DATA for SMP and ACK for
INIT and BEGIN. -/
def Obligations.OneResponsePerCommand : Prop :=
  ∀ (s : State) (w : CmdWord) (rest : List HostInput), s.Legal → s.cmdIn = .command w :: rest →
    ∃ t r, step s = .next t ∧ t.cmdIn = rest ∧ t.rspOut = s.rspOut ++ [rspWord r] ∧
      (t.fault = true → r = .err t.fcode) ∧
      (t.fault = false →
        match decode w with
        | .ok (.smp c _) => ∃ v, r = .data c v
        | .ok _ => r = .ack
        | .error _ => False)

/-- 20_memory R38: responses leave in the order of the commands, one each; response number i belongs to command number i. -/
def Obligations.ResponsesInCommandOrder : Prop :=
  ∀ (ws : List CmdWord) (s t : State), s.cmdIn = ws.map .command → runSteps ws.length s = .next t →
    ∃ rs : List RspWord, rs.length = ws.length ∧ t.rspOut = s.rspOut ++ rs ∧
      ∀ i, i < ws.length → ∃ u v, runSteps i s = .next u ∧ u.cmdIn = (ws.drop i).map .command ∧
        step u = .next v ∧ u.rspOut = s.rspOut ++ rs.take i ∧ v.rspOut = s.rspOut ++ rs.take (i + 1)

/-- 60_exceptions R125: while FAULT = 1 every instruction, and every command word whatever its bits, is answered ERR with
the code of the first fault and changes no state. -/
def Obligations.FaultStateAnswersErr : Prop :=
  (∀ (i : Instr) (s : State), s.fault = true →
    exec i s = .next { s with rspOut := s.rspOut ++ [(15#4 ++ 0#8 ++ s.fcode.setWidth 32 : RspWord)] }) ∧
  ∀ (w : CmdWord) (rest : List HostInput) (s : State), s.fault = true → s.cmdIn = .command w :: rest →
    step s = .next
      { s with cmdIn := rest, rspOut := s.rspOut ++ [(15#4 ++ 0#8 ++ s.fcode.setWidth 32 : RspWord)] }

/-- 10_state R15, 60_exceptions R125: no step but hardware reset clears FAULT or FCODE, or changes COEF, CV, NCH or the
history while FAULT = 1. -/
def Obligations.FaultLeftOnlyByReset : Prop :=
  ∀ s t : State, s.fault = true → (∀ rest, s.cmdIn ≠ .hwReset :: rest) → step s = .next t →
    t.fault = true ∧ t.fcode = s.fcode ∧ t.coef = s.coef ∧ t.cv = s.cv ∧ t.nch = s.nch ∧ t.hist = s.hist

/-- 60_exceptions R126: the command that raises a fault writes FAULT and a code 1 .. 4 and nothing else, and its one
response is ERR with that code. -/
def Obligations.RaisedFaultWritesNothingElse : Prop :=
  ∀ (s t : State) (w : CmdWord) (rest : List HostInput), s.fault = false → s.cmdIn = .command w :: rest →
    step s = .next t → t.fault = true →
      1 ≤ t.fcode.toNat ∧ t.fcode.toNat ≤ 4 ∧
      t = { s with
            cmdIn := rest
            fault := true
            fcode := t.fcode
            rspOut := s.rspOut ++ [(15#4 ++ 0#8 ++ t.fcode.setWidth 32 : RspWord)] }

/-- 60_exceptions R129: a word no row of the opcode table selects raises ILLEGAL_CMD, code 1. -/
def Obligations.IllegalWordRaisesFault : Prop :=
  ∀ (s : State) (w : CmdWord) (rest : List HostInput), s.fault = false → s.cmdIn = .command w :: rest →
    (∀ r ∈ opcodeTable, w &&& r.mask ≠ r.pattern) →
      step s = .next
        { s with cmdIn := rest, fault := true, fcode := 1, rspOut := s.rspOut ++ [0xF0000000001#44] }

/-- 60_exceptions R131, 41_config_ops R85: INIT with n > NCH_MAX raises CHAN_COUNT, code 4; nothing is zeroed. -/
def Obligations.InitBeyondStorageFaults : Prop :=
  ∀ (n : Nat) (s : State), s.fault = false → n > nchMax s →
    exec (.init n) s = .next { s with fault := true, fcode := 4, rspOut := s.rspOut ++ [0xF0000000004#44] }

/-- 60_exceptions R128: SMP with c >= NCH raises CHAN_RANGE, code 2, whatever CV; no cell is written. -/
def Obligations.SmpOutOfRangeFaults : Prop :=
  ∀ (c : Nat) (x : F) (s : State), s.fault = false → c ≥ s.nch →
    exec (.smp c x) s = .next { s with fault := true, fcode := 2, rspOut := s.rspOut ++ [0xF0000000002#44] }

/-- 60_exceptions R130: SMP on a valid channel while CV = 0 raises NO_COEF, code 3. -/
def Obligations.SmpWithoutCoefficientsFaults : Prop :=
  ∀ (c : Nat) (x : F) (s : State), s.fault = false → c < s.nch → s.cv = false →
    exec (.smp c x) s = .next { s with fault := true, fcode := 3, rspOut := s.rspOut ++ [0xF0000000003#44] }

/-- 60_exceptions R127, R134: the complete list of fault causes and the fixed order in which they are checked. -/
def Obligations.FaultChecksInOrder : Prop :=
  ∀ (s : State) (w : CmdWord) (rest : List HostInput), s.Legal → s.cmdIn = .command w :: rest →
    ∃ t, step s = .next t ∧ (t.fault = true ↔ t.fcode ≠ 0) ∧
      t.fcode =
        if s.fault = true then s.fcode
        else
          match decode w with
          | .error _ => 1
          | .ok (.init n) => if n > nchMax s then 4 else 0
          | .ok (.smp c _) => if c ≥ s.nch then 2 else if s.cv = false then 3 else 0
          | .ok _ => 0

/-- 10_state R22, 41_config_ops R85: an INIT that does not fault zeroes every cell of every channel and sets NCH; COEF and
CV keep their values; the response is ACK. -/
def Obligations.InitEstablishesChannels : Prop :=
  ∀ (n : Nat) (s : State), s.fault = false → n ≤ nchMax s →
    ∃ t, exec (.init n) s = .next t ∧ nchMax t = nchMax s ∧
      (∀ c k, c < nchMax s → k < 3 → cellX t c k = some 0x00000000#32 ∧ cellY t c k = some 0x00000000#32) ∧
      t.nch = n ∧ t.coef = s.coef ∧ t.cv = s.cv ∧ t.fault = false ∧ t.fcode = s.fcode ∧
      t.cmdIn = s.cmdIn ∧ t.resets = s.resets ∧ t.rspOut = s.rspOut ++ [0x10000000000#44]

/-- 42_design_ops R90, R91, R92: BEGIN.PEAK. -/
def Obligations.BeginPeakLoadsDesign : Prop :=
  ∀ (fs freq gain q : F) (s : State), s.fault = false →
    let N := machineNum
    let w0 := N.fdiv (N.fmul 0x40C90FDB#32 freq) fs
    let cw := N.fcos w0
    let sw := N.fsin w0
    let alpha := N.fdiv sw (N.fmul 0x40000000#32 q)
    let A := N.fsqrt gain
    exec (.beginPeak fs freq gain q) s = .next
      { s with
        coef :=
          { a0 := N.fadd 0x3F800000#32 (N.fdiv alpha A)
            a1 := N.fneg (N.fmul 0x40000000#32 cw)
            a2 := N.fsub 0x3F800000#32 (N.fdiv alpha A)
            b0 := N.fadd 0x3F800000#32 (N.fmul alpha A)
            b1 := N.fneg (N.fmul 0x40000000#32 cw)
            b2 := N.fsub 0x3F800000#32 (N.fmul alpha A) }
        cv := true
        rspOut := s.rspOut ++ [0x10000000000#44] }

/-- 42_design_ops R90, R91, R93: BEGIN.HP. -/
def Obligations.BeginHpLoadsDesign : Prop :=
  ∀ (fs freq gain q : F) (s : State), s.fault = false →
    let N := machineNum
    let w0 := N.fdiv (N.fmul 0x40C90FDB#32 freq) fs
    let cw := N.fcos w0
    let sw := N.fsin w0
    let alpha := N.fdiv sw (N.fmul 0x40000000#32 q)
    let p := N.fadd 0x3F800000#32 cw
    exec (.beginHp fs freq gain q) s = .next
      { s with
        coef :=
          { a0 := N.fadd 0x3F800000#32 alpha
            a1 := N.fneg (N.fmul 0x40000000#32 cw)
            a2 := N.fsub 0x3F800000#32 alpha
            b0 := N.fdiv p 0x40000000#32
            b1 := N.fneg p
            b2 := N.fdiv p 0x40000000#32 }
        cv := true
        rspOut := s.rspOut ++ [0x10000000000#44] }

/-- 42_design_ops R90, R91, R94: BEGIN.LP. -/
def Obligations.BeginLpLoadsDesign : Prop :=
  ∀ (fs freq gain q : F) (s : State), s.fault = false →
    let N := machineNum
    let w0 := N.fdiv (N.fmul 0x40C90FDB#32 freq) fs
    let cw := N.fcos w0
    let sw := N.fsin w0
    let alpha := N.fdiv sw (N.fmul 0x40000000#32 q)
    let m := N.fsub 0x3F800000#32 cw
    exec (.beginLp fs freq gain q) s = .next
      { s with
        coef :=
          { a0 := N.fadd 0x3F800000#32 alpha
            a1 := N.fneg (N.fmul 0x40000000#32 cw)
            a2 := N.fsub 0x3F800000#32 alpha
            b0 := N.fdiv m 0x40000000#32
            b1 := m
            b2 := N.fdiv m 0x40000000#32 }
        cv := true
        rspOut := s.rspOut ++ [0x10000000000#44] }

/-- 42_design_ops R90, R91, R95: BEGIN.LS. -/
def Obligations.BeginLsLoadsDesign : Prop :=
  ∀ (fs freq gain q : F) (s : State), s.fault = false →
    let N := machineNum
    let w0 := N.fdiv (N.fmul 0x40C90FDB#32 freq) fs
    let cw := N.fcos w0
    let sw := N.fsin w0
    let alpha := N.fdiv sw (N.fmul 0x40000000#32 q)
    let A := N.fsqrt gain
    let ap1 := N.fadd A 0x3F800000#32
    let am1 := N.fsub A 0x3F800000#32
    let tm := N.fmul am1 cw
    let tp := N.fmul ap1 cw
    let sh := N.fmul 0x40000000#32 (N.fsqrt (N.fmul A alpha))
    let u := N.fadd ap1 tm
    let v := N.fsub ap1 tm
    exec (.beginLs fs freq gain q) s = .next
      { s with
        coef :=
          { a0 := N.fadd u sh
            a1 := N.fneg (N.fmul 0x40000000#32 (N.fadd am1 tp))
            a2 := N.fsub u sh
            b0 := N.fmul A (N.fadd v sh)
            b1 := N.fmul (N.fmul 0x40000000#32 A) (N.fsub am1 tp)
            b2 := N.fmul A (N.fsub v sh) }
        cv := true
        rspOut := s.rspOut ++ [0x10000000000#44] }

/-- 42_design_ops R90, R91, R96: BEGIN.HS. -/
def Obligations.BeginHsLoadsDesign : Prop :=
  ∀ (fs freq gain q : F) (s : State), s.fault = false →
    let N := machineNum
    let w0 := N.fdiv (N.fmul 0x40C90FDB#32 freq) fs
    let cw := N.fcos w0
    let sw := N.fsin w0
    let alpha := N.fdiv sw (N.fmul 0x40000000#32 q)
    let A := N.fsqrt gain
    let ap1 := N.fadd A 0x3F800000#32
    let am1 := N.fsub A 0x3F800000#32
    let tm := N.fmul am1 cw
    let tp := N.fmul ap1 cw
    let sh := N.fmul 0x40000000#32 (N.fsqrt (N.fmul A alpha))
    let u := N.fadd ap1 tm
    let v := N.fsub ap1 tm
    exec (.beginHs fs freq gain q) s = .next
      { s with
        coef :=
          { a0 := N.fadd v sh
            a1 := N.fmul 0x40000000#32 (N.fsub am1 tp)
            a2 := N.fsub v sh
            b0 := N.fmul A (N.fadd u sh)
            b1 := N.fmul (N.fneg (N.fmul 0x40000000#32 A)) (N.fadd am1 tp)
            b2 := N.fmul A (N.fsub u sh) }
        cv := true
        rspOut := s.rspOut ++ [0x10000000000#44] }

/-- 43_sample_ops R110, R111, R112: SMP on an established channel with CV = 1 runs the recurrence on the channel's live
cells, shifts both arrays, stores the output in `YH[c][0]` and answers DATA with the same pattern. -/
def Obligations.SmpFiltersSample : Prop :=
  ∀ (c : Nat) (x : F) (s : State), s.fault = false → c < s.nch → s.nch ≤ nchMax s → s.cv = true →
    ∃ x1 x2 y1 y2 : F, cellX s c 0 = some x1 ∧ cellX s c 1 = some x2 ∧ cellY s c 0 = some y1 ∧ cellY s c 1 = some y2 ∧
      let N := machineNum
      let sum := N.fadd (N.fadd (N.fmul s.coef.b0 x) (N.fmul s.coef.b1 x1)) (N.fmul s.coef.b2 x2)
      let acc := N.fsub (N.fsub sum (N.fmul s.coef.a1 y1)) (N.fmul s.coef.a2 y2)
      let out := N.fdiv acc s.coef.a0
      exec (.smp c x) s = .next
        { s with
          hist := s.hist.set c { x := { d0 := x, d1 := x1, d2 := x2 }, y := { d0 := out, d1 := y1, d2 := y2 } }
          rspOut := s.rspOut ++ [(2#4 ++ BitVec.ofNat 8 c ++ out : RspWord)] }

/-- 30_encoding R46: a step on a word that decodes is exec of the decoded instruction, on the state less that word. -/
def Obligations.StepRunsDecoded : Prop :=
  ∀ (s : State) (w : CmdWord) (i : Instr) (rest : List HostInput), s.cmdIn = .command w :: rest → decode w = .ok i →
    step s = exec i { s with cmdIn := rest }

/-- 60_exceptions R140: with no command the block holds its state. -/
def Obligations.IdleHoldsState : Prop := ∀ s : State, s.cmdIn = [] → step s = .next s

/-- 70_reset R145: hardware reset, in any state, leaves CV, NCH, FAULT and FCODE 0 and the pin 0; it takes nothing else from
the host. That a reset in mid-run is an input, and that every response in `rspOut` is dropped (R145 drops those not yet
delivered), is the model's choice: log entry 2. -/
def Obligations.HardwareResetClears : Prop :=
  ∀ (s : State) (rest : List HostInput), s.cmdIn = .hwReset :: rest →
    ∃ t, step s = .next t ∧ t.cv = false ∧ t.nch = 0 ∧ t.fault = false ∧ t.fcode = 0 ∧ faultPin t = false ∧
      t.rspOut = [] ∧ t.cmdIn = rest ∧ nchMax t = nchMax s

/-- Log entry 1 (the model's choice): an instruction placed by `withFetchWord` is what the very next step runs, and the
placing leaves no trace. -/
def Obligations.PlacedInstructionRuns : Prop :=
  ∀ (nbits w : Nat) (i : Instr) (s : State), decodeTableWord nbits w = some i →
    step (s.withFetchWord nbits w) = exec i s

/-- The frame of INIT (41_config_ops R85): COEF, CV, the inputs and NCH_MAX never change; without a fault before or after,
FAULT and FCODE do not either; with one, NCH and the history do not. -/
def Obligations.InitFrame : Prop :=
  ∀ (n : Nat) (s t : State), exec (.init n) s = .next t →
    t.coef = s.coef ∧ t.cv = s.cv ∧ t.cmdIn = s.cmdIn ∧ t.resets = s.resets ∧ nchMax t = nchMax s ∧
      (t.fault = false → t.fcode = s.fcode) ∧ (t.fault = true → t.nch = s.nch ∧ t.hist = s.hist) ∧
      (s.fault = true → t.fault = true ∧ t.fcode = s.fcode) ∧ (n ≤ nchMax s → t.fault = s.fault)

/-- The frame of the five BEGIN commands (42_design_ops R91): NCH, history, FAULT, FCODE and the inputs never change; in
the fault state COEF and CV do not either. -/
def Obligations.BeginFrame : Prop :=
  ∀ (i : Instr) (fs freq gain q : F) (s t : State),
    (i = .beginPeak fs freq gain q ∨ i = .beginHp fs freq gain q ∨ i = .beginLp fs freq gain q ∨
      i = .beginLs fs freq gain q ∨ i = .beginHs fs freq gain q) →
    exec i s = .next t →
      t.nch = s.nch ∧ t.hist = s.hist ∧ t.fault = s.fault ∧ t.fcode = s.fcode ∧ t.cmdIn = s.cmdIn ∧
        t.resets = s.resets ∧ (s.fault = true → t.coef = s.coef ∧ t.cv = s.cv)

/-- The frame of SMP (43_sample_ops R110): COEF, CV, NCH, the inputs and every other channel never change; with a fault
before or after, no channel does; where the checks pass, FAULT and FCODE do not. -/
def Obligations.SmpFrame : Prop :=
  ∀ (c : Nat) (x : F) (s t : State), exec (.smp c x) s = .next t →
    t.coef = s.coef ∧ t.cv = s.cv ∧ t.nch = s.nch ∧ t.cmdIn = s.cmdIn ∧ t.resets = s.resets ∧ nchMax t = nchMax s ∧
      (∀ c' k, c' ≠ c → cellX t c' k = cellX s c' k ∧ cellY t c' k = cellY s c' k) ∧
      (t.fault = true → t.hist = s.hist) ∧ (s.fault = true → t.fault = true ∧ t.fcode = s.fcode) ∧
      (c < s.nch → s.cv = true → t.fault = s.fault ∧ t.fcode = s.fcode)

/-- 10_state R12, R13: COEF and CV are written by a BEGIN command and by hardware reset, and by nothing else. -/
def Obligations.CoefWrittenOnlyByBegin : Prop :=
  ∀ s t : State, step s = .next t → (t.coef ≠ s.coef ∨ t.cv ≠ s.cv) →
    (∃ rest, s.cmdIn = .hwReset :: rest) ∨
      (s.fault = false ∧ t.cv = true ∧ ∃ w ft fs freq gain q rest, s.cmdIn = .command w :: rest ∧
        decode w = .ok (beginInstr ft fs freq gain q))

/-- 10_state R17: a history cell is written by INIT, by an SMP of its own channel and by hardware reset, and by nothing
else. -/
def Obligations.HistoryWrittenOnlyByInitAndSmp : Prop :=
  ∀ (s t : State) (c k : Nat), step s = .next t → (cellX t c k ≠ cellX s c k ∨ cellY t c k ≠ cellY s c k) →
    (∃ rest, s.cmdIn = .hwReset :: rest) ∨
      (s.fault = false ∧ t.fault = false ∧ ∃ w i rest, s.cmdIn = .command w :: rest ∧ decode w = .ok i ∧
        ((∃ n, i = .init n) ∨ ∃ x, i = .smp c x))

/-- 10_state R14: NCH is written by an INIT that does not fault and by hardware reset, and by nothing else. -/
def Obligations.NchWrittenOnlyByInit : Prop :=
  ∀ s t : State, step s = .next t → t.nch ≠ s.nch →
    (∃ rest, s.cmdIn = .hwReset :: rest) ∨
      (s.fault = false ∧ t.fault = false ∧ ∃ w rest, s.cmdIn = .command w :: rest ∧ decode w = .ok (.init t.nch))

/-- 10_state R21, R23: what reset leaves unspecified, the dead cells `[2]` and the cells of channels from NCH on cannot be
observed: states that differ in them only give the same responses and stay so, for every list of inputs. The first clause
says it of the reset state. -/
def Obligations.UnspecifiedCellsUnobservable : Prop :=
  (∀ (inputs : List HostInput) (coef : Coef) (hist : List ChannelHistory), hist.length = nchMax State.reset →
    State.SameObservable { State.reset with cmdIn := inputs }
      { State.reset with cmdIn := inputs, coef := coef, hist := hist }) ∧
  ∀ (k : Nat) (s s' t : State), s.SameObservable s' → runSteps k s = .next t →
    ∃ t', runSteps k s' = .next t' ∧ t.SameObservable t'

/-- 20_memory R39: two SMPs on different established channels give the same final state and the same data in either order;
only the order of the two responses differs. -/
def Obligations.SmpChannelsCommute : Prop :=
  ∀ (c1 c2 : Nat) (u v : F) (s : State), c1 ≠ c2 → c1 < s.nch → c2 < s.nch → s.nch ≤ nchMax s →
    s.cv = true → s.fault = false →
    ∃ t t' d1 d2, execAll [.smp c1 u, .smp c2 v] s = .next t ∧ execAll [.smp c2 v, .smp c1 u] s = .next t' ∧
      t.quiet = t'.quiet ∧ t.rspOut = s.rspOut ++ [d1, d2] ∧ t'.rspOut = s.rspOut ++ [d2, d1]

/-- 42_design_ops R103: design is pure; two BEGIN commands with equal words leave equal COEF, whatever the states. -/
def Obligations.EqualBeginWordsEqualCoef : Prop :=
  ∀ (s s' t t' : State) (w : CmdWord) (rest rest' : List HostInput) (ft : FilterType) (fs freq gain q : F),
    decode w = .ok (beginInstr ft fs freq gain q) → s.cmdIn = .command w :: rest → s'.cmdIn = .command w :: rest' →
    s.fault = false → s'.fault = false → step s = .next t → step s' = .next t' →
      t.coef = t'.coef ∧ t.cv = true ∧ t'.cv = true

/-- 43_sample_ops R113: history continuity. Repeating the BEGIN in the middle of a list of SMPs changes neither the DATA
responses nor the final state. -/
def Obligations.BlockSplittingChangesNothing : Prop :=
  ∀ (ft : FilterType) (fs freq gain q : F) (xs ys : List (Nat × F)) (s : State), s.Legal →
    let b := beginInstr ft fs freq gain q
    let smps := fun l : List (Nat × F) => l.map fun p => Instr.smp p.1 p.2
    ∃ t t', execAll (b :: (smps xs ++ b :: smps ys)) s = .next t ∧ execAll (b :: smps (xs ++ ys)) s = .next t' ∧
      t.quiet = t'.quiet ∧ dataWords t.rspOut = dataWords t'.rspOut

/-- 30_encoding R60, 20_memory R39: PROCESS.CM and PROCESS.FM of one buffer on established channels leave the same state. -/
def Obligations.ProcessOrdersAgree : Prop :=
  ∀ (ft : FilterType) (fs freq gain q : F) (n m : Nat) (buf : Buffer) (s : State), s.Legal → s.fault = false → n ≤ s.nch →
    ∃ t t', execAll (processCM ft fs freq gain q n m buf) s = .next t ∧
      execAll (processFM ft fs freq gain q n m buf) s = .next t' ∧ t.quiet = t'.quiet

/-- 42_design_ops R102: for equal fs, freq and q, BEGIN.HP and BEGIN.LP give the same A0, A1, A2, neither depends on gain,
and BEGIN.PEAK gives the same A1. -/
def Obligations.PassShapesShareDenominator : Prop :=
  ∀ (N : Sys2Proof.Machine.Num) (fs freq q gain gain' : F),
    let hp := design N .highPass fs freq gain q
    let lp := design N .lowPass fs freq gain q
    hp.a0 = lp.a0 ∧ hp.a1 = lp.a1 ∧ hp.a2 = lp.a2 ∧ hp = design N .highPass fs freq gain' q ∧
      lp = design N .lowPass fs freq gain' q ∧ (design N .peak fs freq gain' q).a1 = hp.a1

/-- 30_encoding R47 to R53: decoding the word of a well-formed instruction gives it back, with every operand. -/
def Obligations.DecodeOfEncode : Prop := ∀ i : Instr, i.WellFormed → decode (encode i) = .ok i

/-- 30_encoding R53: a word that decodes is the word of its instruction, and that instruction is well-formed: no two words
have one meaning. -/
def Obligations.EncodeOfDecode : Prop := ∀ (w : CmdWord) (i : Instr), decode w = .ok i → i.WellFormed ∧ encode i = w

/-- 30_encoding R53: no two rows of the opcode table overlap. -/
def Obligations.RowsNeverOverlap : Prop :=
  opcodeTable.Pairwise fun r r' => ∀ w : CmdWord, ¬(w &&& r.mask = r.pattern ∧ w &&& r'.mask = r'.pattern)

/-- 30_encoding R54: exactly the listed words are illegal, the all-zero and the all-ones word among them. -/
def Obligations.IllegalWordsAreThese : Prop :=
  (∀ w : CmdWord, (∃ e, decode w = .error e) ↔
    (w.extractLsb' 140 4 = 0#4 ∨ 4#4 ≤ w.extractLsb' 140 4) ∨
    (w.extractLsb' 140 4 = 1#4 ∧ (w.extractLsb' 136 4 ≠ 0#4 ∨ w.extractLsb' 0 128 ≠ 0#128)) ∨
    (w.extractLsb' 140 4 = 2#4 ∧ (5#4 ≤ w.extractLsb' 136 4 ∨ w.extractLsb' 128 8 ≠ 0#8)) ∨
    (w.extractLsb' 140 4 = 3#4 ∧ (w.extractLsb' 136 4 ≠ 0#4 ∨ w.extractLsb' 32 96 ≠ 0#96))) ∧
  (∃ e, decode 0#144 = .error e) ∧ (∃ e, decode (BitVec.allOnes 144) = .error e) ∧
  ∀ (s : State) (w : CmdWord) (e : Illegal) (rest : List HostInput), s.fault = false → s.cmdIn = .command w :: rest →
    decode w = .error e → ∃ t, step s = .next t ∧ t.fault = true ∧ t.fcode = 1

/-- Words written out from 30_encoding R47 to R50 (95_test_vectors V1 to V6, V15) decode to what they stand for. -/
def Obligations.SampleWordsDecode : Prop :=
  decode 0x100200000000000000000000000000000000#144 = .ok (.init 2) ∧
  decode 0x2000472C4400447A0000400000003F800000#144 =
    .ok (.beginPeak 0x472C4400#32 0x447A0000#32 0x40000000#32 0x3F800000#32) ∧
  decode 0x2100472C4400447A00003F8000003F3504F3#144 =
    .ok (.beginHp 0x472C4400#32 0x447A0000#32 0x3F800000#32 0x3F3504F3#32) ∧
  decode 0x2200472C4400447A00003F8000003F3504F3#144 =
    .ok (.beginLp 0x472C4400#32 0x447A0000#32 0x3F800000#32 0x3F3504F3#32) ∧
  decode 0x2300473B800043480000400000003F3504F3#144 =
    .ok (.beginLs 0x473B8000#32 0x43480000#32 0x40000000#32 0x3F3504F3#32) ∧
  decode 0x2400473B800045FA00003F0000003F3504F3#144 =
    .ok (.beginHs 0x473B8000#32 0x45FA0000#32 0x3F000000#32 0x3F3504F3#32) ∧
  decode 0x30010000000000000000000000003F800000#144 = .ok (.smp 1 0x3F800000#32)

/-- 30_encoding R55: the fields of every response word. -/
def Obligations.ResponseWordFields : Prop :=
  rspWord .ack = 0x10000000000#44 ∧ rspWord (.err 2) = 0xF0000000002#44 ∧
  (∀ (c : Nat) (v : F), (rspWord (.data c v)).extractLsb' 40 4 = 0x2#4 ∧
    (rspWord (.data c v)).extractLsb' 32 8 = BitVec.ofNat 8 c ∧ (rspWord (.data c v)).extractLsb' 0 32 = v) ∧
  (∀ code : BitVec 4, (rspWord (.err code)).extractLsb' 40 4 = 0xF#4 ∧ (rspWord (.err code)).extractLsb' 32 8 = 0#8 ∧
    (rspWord (.err code)).extractLsb' 0 32 = code.setWidth 32) ∧
  ∀ r : Response, (rspWord r).extractLsb' 40 4 = 0x1#4 ∨ (rspWord r).extractLsb' 40 4 = 0x2#4 ∨
    (rspWord r).extractLsb' 40 4 = 0xF#4

/-- 40_numerics R67: the one rounding operation is `round`, to nearest with ties to even, with subnormals kept and
overflow to infinity, of every real that is a fraction of naturals in units of 2^-149. -/
def Obligations.RoundingIsNearestEven : Prop :=
  ∀ (neg : Bool) (p q : Nat), 0 < p → 0 < q →
    IsRounded ((if neg then -1 else 1) * ((p : ℝ) / (q : ℝ)) * (2 : ℝ) ^ (-149 : ℤ)) (roundUnits neg p q)

/-- 40_numerics R68: fadd and fsub. -/
def Obligations.AddAndSubtractRounded : Prop :=
  ∀ (cfg : Config) (a b : F),
    let N := binary32 cfg
    (isNaN a = true ∨ isNaN b = true → isNaN (N.fadd a b) = true) ∧
    (isInf a = true → isInf b = true → signBit a ≠ signBit b → isNaN (N.fadd a b) = true) ∧
    (isInf a = true → (isFinite b = true ∨ b = a) → N.fadd a b = a) ∧
    (isInf b = true → isFinite a = true → N.fadd a b = b) ∧
    (isFinite a = true → isFinite b = true → realValue a + realValue b ≠ 0 →
      IsRounded (realValue a + realValue b) (N.fadd a b)) ∧
    (isFinite a = true → isFinite b = true → realValue a + realValue b = 0 →
      N.fadd a b = if a = 0x80000000#32 ∧ b = 0x80000000#32 then 0x80000000#32 else 0x00000000#32) ∧
    (isNaN b = true → isNaN (N.fsub a b) = true) ∧
    (isNaN b = false → N.fsub a b = N.fadd a (N.fneg b))

/-- 40_numerics R69: fmul and fdiv. -/
def Obligations.MultiplyAndDivideRounded : Prop :=
  ∀ (cfg : Config) (a b : F),
    let N := binary32 cfg
    let neg := signBit a != signBit b
    (isNaN a = true ∨ isNaN b = true → isNaN (N.fmul a b) = true ∧ isNaN (N.fdiv a b) = true) ∧
    ((isZero a = true ∧ isInf b = true) ∨ (isInf a = true ∧ isZero b = true) → isNaN (N.fmul a b) = true) ∧
    ((isInf a = true ∧ isInf b = true) ∨ (isInf a = true ∧ isFinite b = true ∧ isZero b = false) ∨
      (isFinite a = true ∧ isZero a = false ∧ isInf b = true) →
      isInf (N.fmul a b) = true ∧ signBit (N.fmul a b) = neg) ∧
    ((isZero a = true ∧ isFinite b = true) ∨ (isFinite a = true ∧ isZero b = true) →
      isZero (N.fmul a b) = true ∧ signBit (N.fmul a b) = neg) ∧
    (isFinite a = true → isFinite b = true → isZero a = false → isZero b = false →
      IsRounded (realValue a * realValue b) (N.fmul a b) ∧ IsRounded (realValue a / realValue b) (N.fdiv a b)) ∧
    ((isZero a = true ∧ isZero b = true) ∨ (isInf a = true ∧ isInf b = true) → isNaN (N.fdiv a b) = true) ∧
    (isInf a = true → isFinite b = true → isInf (N.fdiv a b) = true ∧ signBit (N.fdiv a b) = neg) ∧
    (isFinite a = true → isInf b = true → isZero (N.fdiv a b) = true ∧ signBit (N.fdiv a b) = neg) ∧
    (isFinite a = true → isZero a = false → isZero b = true →
      isInf (N.fdiv a b) = true ∧ signBit (N.fdiv a b) = neg) ∧
    (isZero a = true → isFinite b = true → isZero b = false →
      isZero (N.fdiv a b) = true ∧ signBit (N.fdiv a b) = neg)

/-- 40_numerics R70: fsqrt and fneg. -/
def Obligations.SqrtRoundedAndNegExact : Prop :=
  ∀ (cfg : Config) (a : F),
    let N := binary32 cfg
    (isNaN a = true → isNaN (N.fsqrt a) = true) ∧
    (signBit a = true → isZero a = false → isNaN (N.fsqrt a) = true) ∧
    (isZero a = true → N.fsqrt a = a) ∧
    (isInf a = true → signBit a = false → N.fsqrt a = a) ∧
    (isFinite a = true → signBit a = false → isZero a = false → IsRounded (Real.sqrt (realValue a)) (N.fsqrt a)) ∧
    (∀ k, k < 32 → (N.fneg a).getLsbD k = if k = 31 then !a.getLsbD 31 else a.getLsbD k) ∧
    (isNaN a = true → isNaN (N.fneg a) = true)

/-- 40_numerics R73: doubling and negation are exact, halving is exact away from the subnormals, 1 + v >= 1. -/
def Obligations.ExactOperations : Prop :=
  ∀ (cfg : Config) (v : F),
    let N := binary32 cfg
    (isFinite v = true →
      isInf (N.fmul 0x40000000#32 v) = true ∨
        (isFinite (N.fmul 0x40000000#32 v) = true ∧ realValue (N.fmul 0x40000000#32 v) = 2 * realValue v)) ∧
    (isInf v = true → N.fmul 0x40000000#32 v = v) ∧
    (isZero v = true ∨ isInf v = true → N.fdiv v 0x40000000#32 = v) ∧
    (isFinite v = true → (2 : ℝ) ^ (-125 : ℤ) ≤ |realValue v| →
      isFinite (N.fdiv v 0x40000000#32) = true ∧ realValue (N.fdiv v 0x40000000#32) = realValue v / 2) ∧
    (isFinite v = true → isZero v = false → IsRounded (realValue v / 2) (N.fdiv v 0x40000000#32) ∧
      (realValue (N.fdiv v 0x40000000#32) ≠ realValue v / 2 → |realValue v / 2| < (2 : ℝ) ^ (-126 : ℤ))) ∧
    (isFinite v = true → realValue (N.fneg v) = -realValue v) ∧
    (nonnegF v = true → atLeastOneF (N.fadd 0x3F800000#32 v) = true)

/-- 40_numerics R75: properties T1 to T4 of FSIN and FCOS, in every configuration. -/
def Obligations.TrigProperties : Prop :=
  ∀ cfg : Config,
    let N := binary32 cfg
    (N.fsin 0x00000000#32 = 0x00000000#32 ∧ N.fsin 0x80000000#32 = 0x80000000#32 ∧
      N.fcos 0x00000000#32 = 0x3F800000#32 ∧ N.fcos 0x80000000#32 = 0x3F800000#32) ∧
    (∀ w : F, isFinite w = false → isNaN (N.fsin w) = true ∧ isNaN (N.fcos w) = true) ∧
    (∀ w : F, isFinite w = true →
      isFinite (N.fsin w) = true ∧ -1 ≤ realValue (N.fsin w) ∧ realValue (N.fsin w) ≤ 1 ∧
        isFinite (N.fcos w) = true ∧ -1 ≤ realValue (N.fcos w) ∧ realValue (N.fcos w) ≤ 1) ∧
    ∀ w : F, isFinite w = true → 0 ≤ realValue w → realValue w ≤ realValue 0x40490FDA#32 → 0 ≤ realValue (N.fsin w)

/-- 40_numerics R78: once any operand is a NaN, every operation returns a NaN. -/
def Obligations.NaNPropagates : Prop :=
  ∀ (cfg : Config) (a b : F),
    let N := binary32 cfg
    (isNaN a = true ∨ isNaN b = true →
      isNaN (N.fadd a b) = true ∧ isNaN (N.fsub a b) = true ∧ isNaN (N.fmul a b) = true ∧ isNaN (N.fdiv a b) = true) ∧
    (isNaN a = true →
      isNaN (N.fsqrt a) = true ∧ isNaN (N.fneg a) = true ∧ isNaN (N.fsin a) = true ∧ isNaN (N.fcos a) = true)

/-- 42_design_ops R101, first sentence pair: the peak shape at gain 1.0 has b = a, pattern by pattern, for every alpha that
is no NaN. -/
def Obligations.UnityGainPeakBitEqual : Prop :=
  ∀ (cfg : Config) (fs freq q : F),
    let N := binary32 cfg
    let k := design N .peak fs freq 0x3F800000#32 q
    isNaN (sharedTerms N fs freq q).alpha = false → k.b0 = k.a0 ∧ k.b1 = k.a1 ∧ k.b2 = k.a2

/-- 42_design_ops R101, last sentence: the shelves at gain 1.0 have b = a, value by value, where the angle is finite and
alpha >= 0. -/
def Obligations.UnityGainShelvesValueEqual : Prop :=
  ∀ (cfg : Config) (fs freq q : F) (ft : FilterType), (ft = .lowShelf ∨ ft = .highShelf) →
    let N := binary32 cfg
    let k := design N ft fs freq 0x3F800000#32 q
    isFinite (designW0 N fs freq) = true → nonnegF (sharedTerms N fs freq q).alpha = true →
      SameValue k.b0 k.a0 ∧ SameValue k.b1 k.a1 ∧ SameValue k.b2 k.a2

/-- 42_design_ops R100, the F-arithmetic bound, with gain finite (at gain = +inf and alpha = +inf the quotient alpha/A is a
NaN, which the rule overlooks; see NOTES.md). -/
def Obligations.PassAndPeakA0AtLeastOne : Prop :=
  ∀ (cfg : Config) (fs freq gain q : F),
    let N := binary32 cfg
    nonnegF (N.fsin (designW0 N fs freq)) = true → positiveF q = true →
      atLeastOneF (design N .highPass fs freq gain q).a0 = true ∧
      atLeastOneF (design N .lowPass fs freq gain q).a0 = true ∧
      (positiveF gain = true → isFinite gain = true → atLeastOneF (design N .peak fs freq gain q).a0 = true)

/-- 43_sample_ops R114: a silent channel stays silent. With zero history and input +0 the output is a zero whenever A0 is
no zero and no NaN and the other coefficients are finite, and is +0, with the history unchanged, when in addition A0 > 0 and
B0's sign bit is 0. -/
def Obligations.SilenceStaysSilent : Prop :=
  ∀ (cfg : Config) (k : Coef), isNaN k.a0 = false → isZero k.a0 = false → isFinite k.a1 = true → isFinite k.a2 = true →
    isFinite k.b0 = true → isFinite k.b1 = true → isFinite k.b2 = true →
    let r := recurrence (binary32 cfg) k zeroHistory 0x00000000#32
    isZero r.2 = true ∧
      (signBit k.a0 = false → signBit k.b0 = false → r = (zeroHistory, 0x00000000#32))

/-- 43_sample_ops R116: degenerate numerics are computed, never trapped. -/
def Obligations.DegenerateNumericsComputed : Prop :=
  ∀ (cfg : Config) (k : Coef) (h : ChannelHistory) (x : F),
    let N := binary32 cfg
    let acc := accumulate N k (shiftIn h.x x) h.y.d0 h.y.d1
    let r := recurrence N k h x
    (isZero k.a0 = true → isNaN acc = false → isZero acc = false →
      isInf r.2 = true ∧ signBit r.2 = (signBit acc != signBit k.a0)) ∧
    (isZero k.a0 = true → (isZero acc = true ∨ isNaN acc = true) → isNaN r.2 = true) ∧
    (isInf k.a0 = true → isFinite acc = true → isZero r.2 = true) ∧
    (isInf k.a0 = true → isInf acc = true → isNaN r.2 = true) ∧
    (isNaN x = true ∨ isNaN k.a0 = true ∨ isNaN k.a1 = true ∨ isNaN k.a2 = true ∨ isNaN k.b0 = true ∨
      isNaN k.b1 = true ∨ isNaN k.b2 = true → isNaN r.2 = true) ∧
    r.1.y.d0 = r.2

/-- 40_numerics R76, property T5: the block's FSIN and FCOS are accurate to TRIG_ULP units in the last place for every finite
angle w with |w| <= 8, whatever its configuration. -/
def Obligations.SineAndCosineAccurate : Prop :=
  ∀ w : F, isFinite w = true → |realValue w| ≤ 8 →
    |realValue (machineNum.fsin w) - Real.sin (realValue w)| ≤
        (Config.machine.trigUlp : ℝ) * ulpOf (Real.sin (realValue w)) ∧
      |realValue (machineNum.fcos w) - Real.cos (realValue w)| ≤
        (Config.machine.trigUlp : ℝ) * ulpOf (Real.cos (realValue w))

/-- 40_numerics R76, R77: the reference instance is among the model's configurations. There is one with TRIG_ULP = 1 that is
accurate to it and whose FSIN and FCOS are the exact sine and cosine rounded once. -/
def Obligations.ReferenceInstanceExists : Prop :=
  ∃ cfg : Config, cfg.trigUlp = 1 ∧ cfg.Accurate ∧
    ∀ w : F, isFinite w = true → isZero w = false →
      IsRounded (Real.sin (realValue w)) ((binary32 cfg).fsin w) ∧
        IsRounded (Real.cos (realValue w)) ((binary32 cfg).fcos w)
end

