-- ==== Sys2Proof/Laws/Decode.lean ====
section
/-! SUPPORT. A command word is its seven fields (30_encoding R47): a laid-out word has the fields it was laid out from,
every word is laid out from its fields, and each row of the opcode table selects by its fields (R53). -/

namespace Sys2Proof

@[simp] theorem opField_layout (op ft : BitVec 4) (ch : BitVec 8) (fs freq gain qd : F) :
    opField (layout op ft ch fs freq gain qd) = op := by
  apply BitVec.eq_of_getLsbD_eq
  intro k hk
  simp [opField, layout]
  grind

@[simp] theorem ftField_layout (op ft : BitVec 4) (ch : BitVec 8) (fs freq gain qd : F) :
    ftField (layout op ft ch fs freq gain qd) = ft := by
  apply BitVec.eq_of_getLsbD_eq
  intro k hk
  simp [ftField, layout]
  grind

@[simp] theorem chField_layout (op ft : BitVec 4) (ch : BitVec 8) (fs freq gain qd : F) :
    chField (layout op ft ch fs freq gain qd) = ch := by
  apply BitVec.eq_of_getLsbD_eq
  intro k hk
  simp [chField, layout]
  grind

@[simp] theorem fsField_layout (op ft : BitVec 4) (ch : BitVec 8) (fs freq gain qd : F) :
    fsField (layout op ft ch fs freq gain qd) = fs := by
  apply BitVec.eq_of_getLsbD_eq
  intro k hk
  simp [fsField, layout, ofBits, bitsF]
  grind

@[simp] theorem freqField_layout (op ft : BitVec 4) (ch : BitVec 8) (fs freq gain qd : F) :
    freqField (layout op ft ch fs freq gain qd) = freq := by
  apply BitVec.eq_of_getLsbD_eq
  intro k hk
  simp [freqField, layout, ofBits, bitsF]
  grind

@[simp] theorem gainField_layout (op ft : BitVec 4) (ch : BitVec 8) (fs freq gain qd : F) :
    gainField (layout op ft ch fs freq gain qd) = gain := by
  apply BitVec.eq_of_getLsbD_eq
  intro k hk
  simp [gainField, layout, ofBits, bitsF]
  grind

@[simp] theorem qdField_layout (op ft : BitVec 4) (ch : BitVec 8) (fs freq gain qd : F) :
    qdField (layout op ft ch fs freq gain qd) = qd := by
  apply BitVec.eq_of_getLsbD_eq
  intro k hk
  simp [qdField, layout, ofBits, bitsF]
  grind

/-- Every word is laid out from its fields. -/
theorem layout_fields (w : CmdWord) :
    layout (opField w) (ftField w) (chField w) (fsField w) (freqField w) (gainField w) (qdField w) = w := by
  apply BitVec.eq_of_getLsbD_eq
  intro k hk
  simp only [layout, opField, ftField, chField, fsField, freqField, gainField, qdField, ofBits, bitsF,
    BitVec.getLsbD_append, BitVec.getLsbD_extractLsb']
  grind

theorem layout_inj {op ft op' ft' : BitVec 4} {ch ch' : BitVec 8} {fs freq gain qd fs' freq' gain' qd' : F} :
    layout op ft ch fs freq gain qd = layout op' ft' ch' fs' freq' gain' qd' ↔
      op = op' ∧ ft = ft' ∧ ch = ch' ∧ fs = fs' ∧ freq = freq' ∧ gain = gain' ∧ qd = qd' := by
  constructor
  · intro h
    refine ⟨?_, ?_, ?_, ?_, ?_, ?_, ?_⟩
    · simpa using congrArg opField h
    · simpa using congrArg ftField h
    · simpa using congrArg chField h
    · simpa using congrArg fsField h
    · simpa using congrArg freqField h
    · simpa using congrArg gainField h
    · simpa using congrArg qdField h
  · rintro ⟨rfl, rfl, rfl, rfl, rfl, rfl, rfl⟩
    rfl

theorem layout_and (op ft op' ft' : BitVec 4) (ch ch' : BitVec 8) (fs freq gain qd fs' freq' gain' qd' : F) :
    layout op ft ch fs freq gain qd &&& layout op' ft' ch' fs' freq' gain' qd' =
      layout (op &&& op') (ft &&& ft') (ch &&& ch') (fs &&& fs') (freq &&& freq') (gain &&& gain') (qd &&& qd') := by
  apply BitVec.eq_of_getLsbD_eq
  intro k hk
  simp only [layout, bitsF, BitVec.getLsbD_append, BitVec.getLsbD_and]
  grind

/-- The rows' masks as fields. -/
theorem rowInit_mask : rowInit.mask = layout 15 15 0 0xFFFFFFFF 0xFFFFFFFF 0xFFFFFFFF 0xFFFFFFFF := by decide
theorem rowBegin_mask : rowBeginPeak.mask = layout 15 15 255 0 0 0 0 := by decide
theorem rowSmp_mask : rowSmp.mask = layout 15 15 0 0xFFFFFFFF 0xFFFFFFFF 0xFFFFFFFF 0 := by decide

theorem and_ones4 (a : BitVec 4) : a &&& 15#4 = a := BitVec.and_allOnes (x := a)
theorem and_ones8 (a : BitVec 8) : a &&& 255#8 = a := BitVec.and_allOnes (x := a)
theorem and_ones32 (a : F) : a &&& 0xFFFFFFFF#32 = a := BitVec.and_allOnes (x := a)

/-- Format I (30_encoding R48). -/
theorem rowInit_selects (w : CmdWord) : rowInit.selects w = true ↔
    opField w = 1 ∧ ftField w = 0 ∧ fsField w = 0 ∧ freqField w = 0 ∧ gainField w = 0 ∧ qdField w = 0 := by
  have hp : rowInit.pattern = layout 1 0 0 0 0 0 0 := by decide
  rw [Row.selects, beq_iff_eq, hp, rowInit_mask]
  conv_lhs => rw [← layout_fields w]
  simp [layout_and, layout_inj, and_ones4, and_ones32]

/-- Format S (30_encoding R50). -/
theorem rowSmp_selects (w : CmdWord) : rowSmp.selects w = true ↔
    opField w = 3 ∧ ftField w = 0 ∧ fsField w = 0 ∧ freqField w = 0 ∧ gainField w = 0 := by
  have hp : rowSmp.pattern = layout 3 0 0 0 0 0 0 := by decide
  rw [Row.selects, beq_iff_eq, hp, rowSmp_mask]
  conv_lhs => rw [← layout_fields w]
  simp [layout_and, layout_inj, and_ones4, and_ones32]

/-- Format B (30_encoding R49): what a row with the BEGIN mask selects. -/
theorem begin_selects {r : Row} {ft : BitVec 4} (hm : r.mask = layout 15 15 255 0 0 0 0)
    (hp : r.pattern = layout 2 ft 0 0 0 0 0) (w : CmdWord) :
    r.selects w = true ↔ opField w = 2 ∧ ftField w = ft ∧ chField w = 0 := by
  rw [Row.selects, beq_iff_eq, hp, hm]
  conv_lhs => rw [← layout_fields w]
  simp [layout_and, layout_inj, and_ones4, and_ones8]

theorem rowBeginPeak_selects (w : CmdWord) :
    rowBeginPeak.selects w = true ↔ opField w = 2 ∧ ftField w = 0 ∧ chField w = 0 :=
  begin_selects (by decide) (by decide) w

theorem rowBeginHp_selects (w : CmdWord) :
    rowBeginHp.selects w = true ↔ opField w = 2 ∧ ftField w = 1 ∧ chField w = 0 :=
  begin_selects (by decide) (by decide) w

theorem rowBeginLp_selects (w : CmdWord) :
    rowBeginLp.selects w = true ↔ opField w = 2 ∧ ftField w = 2 ∧ chField w = 0 :=
  begin_selects (by decide) (by decide) w

theorem rowBeginLs_selects (w : CmdWord) :
    rowBeginLs.selects w = true ↔ opField w = 2 ∧ ftField w = 3 ∧ chField w = 0 :=
  begin_selects (by decide) (by decide) w

theorem rowBeginHs_selects (w : CmdWord) :
    rowBeginHs.selects w = true ↔ opField w = 2 ∧ ftField w = 4 ∧ chField w = 0 :=
  begin_selects (by decide) (by decide) w

end Sys2Proof
end

