-- ==== Sys2Proof/Laws/Numerics.lean ====
section
/-! SUPPORT. The numerics, said once. An F value is its sign and its magnitude bits; the classes are ranges of magnitude
bits; `unitsOfMag` is strictly increasing; `roundUnits` picks the nearer of the two neighbours of the exact fraction. -/

namespace Sys2Proof.Machine

/-! ## A pattern is its sign and its magnitude bits -/

theorem magBits_lt (a : F) : magBits a < 2 ^ 31 := Nat.mod_lt _ (by decide)

theorem expField_eq (a : F) : expField a = magBits a / 2 ^ 23 := by
  unfold expField magBits
  omega

theorem fracField_eq (a : F) : fracField a = magBits a % 2 ^ 23 := by
  unfold fracField magBits
  omega

theorem signBit_iff (a : F) : signBit a = true ↔ 2 ^ 31 ≤ a.toNat := by
  have h := a.isLt
  rw [signBit, BitVec.getLsbD, Nat.testBit_eq_decide_div_mod_eq, decide_eq_true_iff]
  omega

theorem toNat_eq (a : F) : a.toNat = (if signBit a then 2 ^ 31 else 0) + magBits a := by
  have h := a.isLt
  unfold magBits
  split
  · rename_i hs; have := (signBit_iff a).1 hs; omega
  · rename_i hs; have := mt (signBit_iff a).2 hs; omega

theorem toNat_pack {neg : Bool} {k : Nat} (hk : k < 2 ^ 31) :
    (pack neg k).toNat = (if neg then 2 ^ 31 else 0) + k := by
  unfold pack
  rw [BitVec.toNat_ofNat]
  apply Nat.mod_eq_of_lt
  split <;> omega

theorem magBits_pack {neg : Bool} {k : Nat} (hk : k < 2 ^ 31) : magBits (pack neg k) = k := by
  unfold magBits
  rw [toNat_pack hk]
  split <;> omega

theorem signBit_pack {neg : Bool} {k : Nat} (hk : k < 2 ^ 31) : signBit (pack neg k) = neg := by
  rw [Bool.eq_iff_iff, signBit_iff, toNat_pack hk]
  cases neg <;> simp
  omega

theorem pack_self (a : F) : pack (signBit a) (magBits a) = a := by
  apply BitVec.eq_of_toNat_eq
  rw [toNat_pack (magBits_lt a), ← toNat_eq]

theorem eq_of_sign_mag {a b : F} (hs : signBit a = signBit b) (hm : magBits a = magBits b) : a = b := by
  rw [← pack_self a, ← pack_self b, hs, hm]

/-! ## The classes are ranges of magnitude bits (40_numerics R66) -/

theorem isNaN_iff (a : F) : isNaN a = true ↔ infBits < magBits a := by
  have := magBits_lt a
  simp only [isNaN, expField_eq, fracField_eq, infBits, Bool.and_eq_true, beq_iff_eq, bne_iff_ne]
  omega

theorem isInf_iff (a : F) : isInf a = true ↔ magBits a = infBits := by
  have := magBits_lt a
  simp only [isInf, expField_eq, fracField_eq, infBits, Bool.and_eq_true, beq_iff_eq]
  omega

theorem isZero_iff (a : F) : isZero a = true ↔ magBits a = 0 := by
  have := magBits_lt a
  simp only [isZero, expField_eq, fracField_eq, Bool.and_eq_true, beq_iff_eq]
  omega

theorem isFinite_iff (a : F) : isFinite a = true ↔ magBits a < infBits := by
  have := magBits_lt a
  simp only [isFinite, expField_eq, infBits, bne_iff_ne]
  omega

theorem isNaN_nanOf (cfg : Config) (op : NumOp) (a b : F) : isNaN (nanOf cfg op a b) = true := by
  have h := (cfg.nanChoice op a b).frac.isLt
  rw [isNaN_iff, nanOf, magBits_pack (by unfold infBits; omega)]
  omega

theorem signBit_fneg (a : F) : signBit (fnegBits a) = !signBit a := by
  simp [signBit, fnegBits]

theorem magBits_fneg (a : F) : magBits (fnegBits a) = magBits a := by
  have h : ∀ k, (fnegBits a).toNat % 2 ^ 31 = k ↔ a.toNat % 2 ^ 31 = k := by
    intro k
    rw [fnegBits, BitVec.toNat_xor, Nat.xor_mod_two_pow]
    simp
  exact (h _).2 rfl

@[simp] theorem isNaN_fneg (a : F) : isNaN (fnegBits a) = isNaN a := by
  rw [Bool.eq_iff_iff, isNaN_iff, isNaN_iff, magBits_fneg]
@[simp] theorem isInf_fneg (a : F) : isInf (fnegBits a) = isInf a := by
  rw [Bool.eq_iff_iff, isInf_iff, isInf_iff, magBits_fneg]
@[simp] theorem isZero_fneg (a : F) : isZero (fnegBits a) = isZero a := by
  rw [Bool.eq_iff_iff, isZero_iff, isZero_iff, magBits_fneg]
@[simp] theorem isFinite_fneg (a : F) : isFinite (fnegBits a) = isFinite a := by
  rw [Bool.eq_iff_iff, isFinite_iff, isFinite_iff, magBits_fneg]

theorem not_nan_of_finite {a : F} (h : isFinite a = true) : isNaN a = false ∧ isInf a = false := by
  rw [isFinite_iff] at h
  rw [Bool.eq_false_iff, Bool.eq_false_iff, Ne, Ne, isNaN_iff, isInf_iff]
  omega

theorem not_nan_of_inf {a : F} (h : isInf a = true) : isNaN a = false ∧ isFinite a = false ∧ isZero a = false := by
  rw [isInf_iff] at h
  rw [Bool.eq_false_iff, Bool.eq_false_iff, Bool.eq_false_iff, Ne, Ne, Ne, isNaN_iff, isFinite_iff, isZero_iff]
  unfold infBits at *
  omega

theorem finite_of_zero {a : F} (h : isZero a = true) : isFinite a = true := by
  rw [isZero_iff] at h
  rw [isFinite_iff, h]
  decide

theorem class_cases {a : F} (h : isNaN a = false) :
    isInf a = true ∨ isZero a = true ∨ (isFinite a = true ∧ isZero a = false) := by
  rw [Bool.eq_false_iff, Ne, isNaN_iff] at h
  rw [Bool.eq_false_iff, Ne, isInf_iff, isZero_iff, isFinite_iff]
  omega

@[simp] theorem signBit_infF (neg : Bool) : signBit (infF neg) = neg := by cases neg <;> decide
@[simp] theorem isInf_infF (neg : Bool) : isInf (infF neg) = true := by cases neg <;> decide
@[simp] theorem signBit_zeroF (neg : Bool) : signBit (zeroF neg) = neg := by cases neg <;> decide
@[simp] theorem isZero_zeroF (neg : Bool) : isZero (zeroF neg) = true := by cases neg <;> decide

/-! ## The value of magnitude bits -/

/-- A count of at most 24 bits, at exponent e, has the magnitude bits `e · 2^23 + m` (40_numerics R66). -/
theorem unitsOfMag_eq {e m : Nat} (hm : m ≤ 2 ^ 24) (he : e = 0 ∨ 2 ^ 23 ≤ m) : unitsOfMag (e * 2 ^ 23 + m) = m * 2 ^ e := by
  unfold unitsOfMag
  rcases Nat.lt_or_ge m (2 ^ 23) with h | h
  · obtain rfl : e = 0 := by omega
    rw [if_pos (by omega)]
    omega
  · rcases Nat.lt_or_ge m (2 ^ 24) with h' | h'
    · rw [if_neg (by omega), show (e * 2 ^ 23 + m) / 2 ^ 23 - 1 = e by omega,
        show 2 ^ 23 + (e * 2 ^ 23 + m) % 2 ^ 23 = m by omega]
    · obtain rfl : m = 2 ^ 24 := by omega
      rw [if_neg (by omega), show (e * 2 ^ 23 + 2 ^ 24) / 2 ^ 23 - 1 = e + 1 by omega,
        show 2 ^ 23 + (e * 2 ^ 23 + 2 ^ 24) % 2 ^ 23 = 2 ^ 23 by omega, pow_succ 2 e]
      ring

/-- Every magnitude is a count of at most 24 bits at an exponent. -/
theorem mag_split (k : Nat) : ∃ e m, k = e * 2 ^ 23 + m ∧ m < 2 ^ 24 ∧ (e = 0 ∨ 2 ^ 23 ≤ m) := by
  rcases Nat.lt_or_ge k (2 ^ 23) with h | h
  · exact ⟨0, k, by omega, by omega, .inl rfl⟩
  · exact ⟨k / 2 ^ 23 - 1, 2 ^ 23 + k % 2 ^ 23, by omega, by omega, .inr (by omega)⟩

theorem unitsOfMag_lt_succ (k : Nat) : unitsOfMag k < unitsOfMag (k + 1) := by
  obtain ⟨e, m, rfl, hm, he⟩ := mag_split k
  rw [unitsOfMag_eq (by omega) he, Nat.add_assoc, unitsOfMag_eq (by omega) (by omega)]
  exact Nat.mul_lt_mul_of_pos_right (Nat.lt_succ_self m) (Nat.two_pow_pos e)

theorem unitsOfMag_strictMono : StrictMono unitsOfMag := strictMono_nat_of_lt_succ unitsOfMag_lt_succ

@[simp] theorem unitsOfMag_zero : unitsOfMag 0 = 0 := by decide

theorem unitsOfMag_eq_zero {k : Nat} : unitsOfMag k = 0 ↔ k = 0 := by
  constructor
  · intro h
    by_contra hk
    have := unitsOfMag_strictMono (Nat.pos_of_ne_zero hk)
    rw [unitsOfMag_zero] at this
    omega
  · rintro rfl
    exact unitsOfMag_zero

theorem magUnits_eq_zero (a : F) : magUnits a = 0 ↔ isZero a = true := by
  rw [isZero_iff, magUnits, unitsOfMag_eq_zero]

@[simp] theorem magUnits_fneg (a : F) : magUnits (fnegBits a) = magUnits a := by
  rw [magUnits, magBits_fneg, magUnits]

@[simp] theorem units_fneg (a : F) : units (fnegBits a) = -units a := by
  unfold units
  rw [signBit_fneg, magUnits_fneg]
  cases signBit a <;> simp

theorem unitsOfMag_infBits : unitsOfMag infBits = 2 ^ 277 := by
  rw [infBits, show 0x7F800000 = 253 * 2 ^ 23 + 2 ^ 24 by norm_num, unitsOfMag_eq (by norm_num) (by norm_num), ← pow_add]

theorem unitsOfMag_maxFinite : unitsOfMag (infBits - 1) = (2 ^ 24 - 1) * 2 ^ 253 := by
  rw [infBits, show 0x7F800000 - 1 = 253 * 2 ^ 23 + (2 ^ 24 - 1) by norm_num, unitsOfMag_eq (by norm_num) (by norm_num)]

/-! ## Rounding (40_numerics R67) -/

/-- The last choice of `roundUnits`: to the lower neighbour k, or to the upper one. -/
def RoundsUp (k p q : Nat) : Prop :=
  (unitsOfMag k + unitsOfMag (k + 1)) * q < 2 * p ∨ ((unitsOfMag k + unitsOfMag (k + 1)) * q = 2 * p ∧ k % 2 = 1)

/-- What `roundUnits` does: the exact fraction lies between the values of the magnitudes k and k + 1, and the result is the
nearer one, the even one of two equally near, cut off at infinity. -/
theorem roundUnits_spec (neg : Bool) {p q : Nat} (hq : 0 < q) :
    ∃ k, unitsOfMag k * q ≤ p ∧ p < unitsOfMag (k + 1) * q ∧
      ((RoundsUp k p q ∧ roundUnits neg p q = pack neg (min (k + 1) infBits)) ∨
        (¬RoundsUp k p q ∧ roundUnits neg p q = pack neg (min k infBits))) := by
  set e := Nat.log2 (p / q) - 23 with he
  set d := q * 2 ^ e with hd
  set m := p / d with hm
  have h2 : 0 < 2 ^ e := Nat.two_pow_pos e
  have hd0 : 0 < d := Nat.mul_pos hq h2
  have hme : m = p / q / 2 ^ e := by rw [hm, hd, Nat.div_div_eq_div_mul]
  have hbound : m < 2 ^ 24 ∧ (e = 0 ∨ 2 ^ 23 ≤ m) := by
    rcases Nat.lt_or_ge (p / q) (2 ^ 24) with h | h
    · have h0 : e = 0 := by
        rcases Nat.eq_zero_or_pos (p / q) with z | z
        · rw [he, z]; decide
        · have := (Nat.log2_lt (by omega : p / q ≠ 0)).2 h
          omega
      rw [hme, h0]
      exact ⟨by simpa using h, .inl rfl⟩
    · have hne : p / q ≠ 0 := by omega
      have hl : 24 ≤ Nat.log2 (p / q) := (Nat.le_log2 hne).2 h
      have hlo : 2 ^ Nat.log2 (p / q) ≤ p / q := Nat.log2_self_le hne
      have hhi : p / q < 2 ^ (Nat.log2 (p / q) + 1) := Nat.lt_log2_self
      have e1 : 2 ^ Nat.log2 (p / q) = 2 ^ 23 * 2 ^ e := by rw [← pow_add]; congr 1; omega
      have e2 : 2 ^ (Nat.log2 (p / q) + 1) = 2 ^ 24 * 2 ^ e := by rw [← pow_add]; congr 1; omega
      rw [hme]
      exact ⟨(Nat.div_lt_iff_lt_mul h2).2 (by omega), .inr ((Nat.le_div_iff_mul_le h2).2 (by omega))⟩
  have hU : unitsOfMag (e * 2 ^ 23 + m) = m * 2 ^ e := unitsOfMag_eq (by omega) hbound.2
  have hU' : unitsOfMag (e * 2 ^ 23 + m + 1) = (m + 1) * 2 ^ e := by
    rw [Nat.add_assoc]; exact unitsOfMag_eq (by omega) (by omega)
  have hr : d * m + p % d = p := Nat.div_add_mod p d
  have hlt : p % d < d := Nat.mod_lt p hd0
  have hUq : unitsOfMag (e * 2 ^ 23 + m) * q = d * m := by rw [hU, hd]; ring
  have hUq' : unitsOfMag (e * 2 ^ 23 + m + 1) * q = d * m + d := by rw [hU', hd]; ring
  have hpar : (e * 2 ^ 23 + m) % 2 = m % 2 := by omega
  refine ⟨e * 2 ^ 23 + m, by omega, by omega, ?_⟩
  have hup : RoundsUp (e * 2 ^ 23 + m) p q ↔ 2 * (p % d) > d ∨ (2 * (p % d) = d ∧ m % 2 = 1) := by
    unfold RoundsUp
    rw [Nat.add_mul, hUq, hUq', hpar]
    omega
  by_cases h : 2 * (p % d) > d ∨ (2 * (p % d) = d ∧ m % 2 = 1)
  · refine .inl ⟨hup.2 h, ?_⟩
    simp only [roundUnits, ← he, ← hd, ← hm, if_pos h]
  · refine .inr ⟨mt hup.1 h, ?_⟩
    simp only [roundUnits, ← he, ← hd, ← hm, if_neg h, Nat.add_zero]

/-! ## The integer square root -/

theorem isqrtFrom_spec (n : Nat) : ∀ (bits acc : Nat), acc * acc ≤ n → n < (acc + 2 ^ bits) * (acc + 2 ^ bits) →
    isqrtFrom n bits acc * isqrtFrom n bits acc ≤ n ∧ n < (isqrtFrom n bits acc + 1) * (isqrtFrom n bits acc + 1)
  | 0, acc, h1, h2 => by simpa [isqrtFrom] using And.intro h1 h2
  | bits + 1, acc, h1, h2 => by
    unfold isqrtFrom
    split
    · rename_i h
      refine isqrtFrom_spec n bits _ h ?_
      rwa [show acc + 2 ^ bits + 2 ^ bits = acc + 2 ^ (bits + 1) by rw [pow_succ]; ring]
    · rename_i h
      exact isqrtFrom_spec n bits acc h1 (by omega)

/-- The root is the integer square root, for every n below 2^428. -/
theorem isqrt_spec {n : Nat} (hn : n < 2 ^ 428) : isqrt n * isqrt n ≤ n ∧ n < (isqrt n + 1) * (isqrt n + 1) := by
  refine isqrtFrom_spec n 214 0 (by omega) ?_
  have : (0 + 2 ^ 214) * (0 + 2 ^ 214) = 2 ^ 428 := by rw [Nat.zero_add, ← pow_add]
  omega

end Sys2Proof.Machine
end

