-- ==== Sys2Proof/Laws/State.lean ====
section
/-! SUPPORT. One lemma for each field under each update of the state, so that no proof unfolds a record update. -/

namespace Sys2Proof.Machine

@[simp] theorem setFault_coef (c : Cause) (s : State) : (setFault c s).coef = s.coef := rfl
@[simp] theorem setFault_cv (c : Cause) (s : State) : (setFault c s).cv = s.cv := rfl
@[simp] theorem setFault_nch (c : Cause) (s : State) : (setFault c s).nch = s.nch := rfl
@[simp] theorem setFault_hist (c : Cause) (s : State) : (setFault c s).hist = s.hist := rfl
@[simp] theorem setFault_fault (c : Cause) (s : State) : (setFault c s).fault = true := rfl
@[simp] theorem setFault_fcode (c : Cause) (s : State) : (setFault c s).fcode = causeCode c := rfl
@[simp] theorem setFault_cmdIn (c : Cause) (s : State) : (setFault c s).cmdIn = s.cmdIn := rfl
@[simp] theorem setFault_rspOut (c : Cause) (s : State) : (setFault c s).rspOut = s.rspOut := rfl
@[simp] theorem setFault_resets (c : Cause) (s : State) : (setFault c s).resets = s.resets := rfl

@[simp] theorem setCoef_coef (k : Coef) (s : State) : (setCoef k s).coef = k := rfl
@[simp] theorem setCoef_cv (k : Coef) (s : State) : (setCoef k s).cv = true := rfl
@[simp] theorem setCoef_nch (k : Coef) (s : State) : (setCoef k s).nch = s.nch := rfl
@[simp] theorem setCoef_hist (k : Coef) (s : State) : (setCoef k s).hist = s.hist := rfl
@[simp] theorem setCoef_fault (k : Coef) (s : State) : (setCoef k s).fault = s.fault := rfl
@[simp] theorem setCoef_fcode (k : Coef) (s : State) : (setCoef k s).fcode = s.fcode := rfl
@[simp] theorem setCoef_cmdIn (k : Coef) (s : State) : (setCoef k s).cmdIn = s.cmdIn := rfl
@[simp] theorem setCoef_rspOut (k : Coef) (s : State) : (setCoef k s).rspOut = s.rspOut := rfl
@[simp] theorem setCoef_resets (k : Coef) (s : State) : (setCoef k s).resets = s.resets := rfl

@[simp] theorem setChannel_coef (c : Nat) (h : ChannelHistory) (s : State) : (setChannel c h s).coef = s.coef := rfl
@[simp] theorem setChannel_cv (c : Nat) (h : ChannelHistory) (s : State) : (setChannel c h s).cv = s.cv := rfl
@[simp] theorem setChannel_nch (c : Nat) (h : ChannelHistory) (s : State) : (setChannel c h s).nch = s.nch := rfl
@[simp] theorem setChannel_hist (c : Nat) (h : ChannelHistory) (s : State) : (setChannel c h s).hist = s.hist.set c h := rfl
@[simp] theorem setChannel_fault (c : Nat) (h : ChannelHistory) (s : State) : (setChannel c h s).fault = s.fault := rfl
@[simp] theorem setChannel_fcode (c : Nat) (h : ChannelHistory) (s : State) : (setChannel c h s).fcode = s.fcode := rfl
@[simp] theorem setChannel_cmdIn (c : Nat) (h : ChannelHistory) (s : State) : (setChannel c h s).cmdIn = s.cmdIn := rfl
@[simp] theorem setChannel_rspOut (c : Nat) (h : ChannelHistory) (s : State) : (setChannel c h s).rspOut = s.rspOut := rfl
@[simp] theorem setChannel_resets (c : Nat) (h : ChannelHistory) (s : State) : (setChannel c h s).resets = s.resets := rfl

@[simp] theorem zeroAllHistory_coef (s : State) : (zeroAllHistory s).coef = s.coef := rfl
@[simp] theorem zeroAllHistory_cv (s : State) : (zeroAllHistory s).cv = s.cv := rfl
@[simp] theorem zeroAllHistory_nch (s : State) : (zeroAllHistory s).nch = s.nch := rfl
@[simp] theorem zeroAllHistory_hist (s : State) : (zeroAllHistory s).hist = List.replicate (nchMax s) zeroHistory := rfl
@[simp] theorem zeroAllHistory_fault (s : State) : (zeroAllHistory s).fault = s.fault := rfl
@[simp] theorem zeroAllHistory_fcode (s : State) : (zeroAllHistory s).fcode = s.fcode := rfl
@[simp] theorem zeroAllHistory_cmdIn (s : State) : (zeroAllHistory s).cmdIn = s.cmdIn := rfl
@[simp] theorem zeroAllHistory_rspOut (s : State) : (zeroAllHistory s).rspOut = s.rspOut := rfl
@[simp] theorem zeroAllHistory_resets (s : State) : (zeroAllHistory s).resets = s.resets := rfl

@[simp] theorem setNch_coef (n : Nat) (s : State) : (setNch n s).coef = s.coef := rfl
@[simp] theorem setNch_cv (n : Nat) (s : State) : (setNch n s).cv = s.cv := rfl
@[simp] theorem setNch_nch (n : Nat) (s : State) : (setNch n s).nch = n := rfl
@[simp] theorem setNch_hist (n : Nat) (s : State) : (setNch n s).hist = s.hist := rfl
@[simp] theorem setNch_fault (n : Nat) (s : State) : (setNch n s).fault = s.fault := rfl
@[simp] theorem setNch_fcode (n : Nat) (s : State) : (setNch n s).fcode = s.fcode := rfl
@[simp] theorem setNch_cmdIn (n : Nat) (s : State) : (setNch n s).cmdIn = s.cmdIn := rfl
@[simp] theorem setNch_rspOut (n : Nat) (s : State) : (setNch n s).rspOut = s.rspOut := rfl
@[simp] theorem setNch_resets (n : Nat) (s : State) : (setNch n s).resets = s.resets := rfl

@[simp] theorem respond_coef (r : Response) (s : State) : (respond r s).coef = s.coef := rfl
@[simp] theorem respond_cv (r : Response) (s : State) : (respond r s).cv = s.cv := rfl
@[simp] theorem respond_nch (r : Response) (s : State) : (respond r s).nch = s.nch := rfl
@[simp] theorem respond_hist (r : Response) (s : State) : (respond r s).hist = s.hist := rfl
@[simp] theorem respond_fault (r : Response) (s : State) : (respond r s).fault = s.fault := rfl
@[simp] theorem respond_fcode (r : Response) (s : State) : (respond r s).fcode = s.fcode := rfl
@[simp] theorem respond_cmdIn (r : Response) (s : State) : (respond r s).cmdIn = s.cmdIn := rfl
@[simp] theorem respond_rspOut (r : Response) (s : State) : (respond r s).rspOut = s.rspOut ++ [rspWord r] := rfl
@[simp] theorem respond_resets (r : Response) (s : State) : (respond r s).resets = s.resets := rfl

@[simp] theorem setInputs_coef (inputs : List HostInput) (s : State) : (setInputs inputs s).coef = s.coef := rfl
@[simp] theorem setInputs_cv (inputs : List HostInput) (s : State) : (setInputs inputs s).cv = s.cv := rfl
@[simp] theorem setInputs_nch (inputs : List HostInput) (s : State) : (setInputs inputs s).nch = s.nch := rfl
@[simp] theorem setInputs_hist (inputs : List HostInput) (s : State) : (setInputs inputs s).hist = s.hist := rfl
@[simp] theorem setInputs_fault (inputs : List HostInput) (s : State) : (setInputs inputs s).fault = s.fault := rfl
@[simp] theorem setInputs_fcode (inputs : List HostInput) (s : State) : (setInputs inputs s).fcode = s.fcode := rfl
@[simp] theorem setInputs_cmdIn (inputs : List HostInput) (s : State) : (setInputs inputs s).cmdIn = inputs := rfl
@[simp] theorem setInputs_rspOut (inputs : List HostInput) (s : State) : (setInputs inputs s).rspOut = s.rspOut := rfl
@[simp] theorem setInputs_resets (inputs : List HostInput) (s : State) : (setInputs inputs s).resets = s.resets := rfl

@[simp] theorem hardwareReset_coef (s : State) : (hardwareReset s).coef = unspecifiedCoef s.resets := rfl
@[simp] theorem hardwareReset_cv (s : State) : (hardwareReset s).cv = false := rfl
@[simp] theorem hardwareReset_nch (s : State) : (hardwareReset s).nch = 0 := rfl
@[simp] theorem hardwareReset_hist (s : State) : (hardwareReset s).hist = unspecifiedSlots s.resets 0 (nchMax s) := rfl
@[simp] theorem hardwareReset_fault (s : State) : (hardwareReset s).fault = false := rfl
@[simp] theorem hardwareReset_fcode (s : State) : (hardwareReset s).fcode = 0 := rfl
@[simp] theorem hardwareReset_cmdIn (s : State) : (hardwareReset s).cmdIn = s.cmdIn := rfl
@[simp] theorem hardwareReset_rspOut (s : State) : (hardwareReset s).rspOut = [] := rfl
@[simp] theorem hardwareReset_resets (s : State) : (hardwareReset s).resets = s.resets + 1 := rfl

@[simp] theorem withFetchWord_coef (nbits w : Nat) (s : State) : (s.withFetchWord nbits w).coef = s.coef := rfl
@[simp] theorem withFetchWord_cv (nbits w : Nat) (s : State) : (s.withFetchWord nbits w).cv = s.cv := rfl
@[simp] theorem withFetchWord_nch (nbits w : Nat) (s : State) : (s.withFetchWord nbits w).nch = s.nch := rfl
@[simp] theorem withFetchWord_hist (nbits w : Nat) (s : State) : (s.withFetchWord nbits w).hist = s.hist := rfl
@[simp] theorem withFetchWord_fault (nbits w : Nat) (s : State) : (s.withFetchWord nbits w).fault = s.fault := rfl
@[simp] theorem withFetchWord_fcode (nbits w : Nat) (s : State) : (s.withFetchWord nbits w).fcode = s.fcode := rfl
@[simp] theorem withFetchWord_cmdIn (nbits w : Nat) (s : State) : (s.withFetchWord nbits w).cmdIn = HostInput.command (tableWord nbits w) :: s.cmdIn := rfl
@[simp] theorem withFetchWord_rspOut (nbits w : Nat) (s : State) : (s.withFetchWord nbits w).rspOut = s.rspOut := rfl
@[simp] theorem withFetchWord_resets (nbits w : Nat) (s : State) : (s.withFetchWord nbits w).resets = s.resets := rfl

@[simp] theorem setChannel_nchMax (c : Nat) (h : ChannelHistory) (s : State) : nchMax (setChannel c h s) = nchMax s := by
  simp [nchMax]

@[simp] theorem zeroAllHistory_nchMax (s : State) : nchMax (zeroAllHistory s) = nchMax s := by
  simp [nchMax]

@[simp] theorem unspecifiedSlots_length (n c slots : Nat) : (unspecifiedSlots n c slots).length = slots := by
  induction slots generalizing c with
  | zero => rfl
  | succ k ih => simp [unspecifiedSlots, ih]

@[simp] theorem hardwareReset_nchMax (s : State) : nchMax (hardwareReset s) = nchMax s := by
  simp [nchMax]

@[simp] theorem setFault_nchMax (c : Cause) (s : State) : nchMax (setFault c s) = nchMax s := rfl
@[simp] theorem setCoef_nchMax (k : Coef) (s : State) : nchMax (setCoef k s) = nchMax s := rfl
@[simp] theorem setNch_nchMax (n : Nat) (s : State) : nchMax (setNch n s) = nchMax s := rfl
@[simp] theorem setInputs_nchMax (inputs : List HostInput) (s : State) : nchMax (setInputs inputs s) = nchMax s := rfl
@[simp] theorem respond_nchMax (r : Response) (s : State) : nchMax (respond r s) = nchMax s := rfl

theorem countFits_true {n : Nat} {s : State} : countFits n s = true ↔ n ≤ nchMax s := by simp [countFits]
theorem countFits_false {n : Nat} {s : State} : countFits n s = false ↔ nchMax s < n := by simp [countFits]
theorem channelInRange_true {c : Nat} {s : State} : channelInRange c s = true ↔ c < s.nch := by simp [channelInRange]
theorem channelInRange_false {c : Nat} {s : State} : channelInRange c s = false ↔ s.nch ≤ c := by simp [channelInRange]

/-- The channel written reads as written, where the store has the slot. -/
theorem channel_setChannel_self {c : Nat} {s : State} (h : ChannelHistory) (hc : c < nchMax s) :
    channel c (setChannel c h s) = some h := by
  simp_all [channel, nchMax]

/-- No other channel changes. -/
theorem channel_setChannel_other {c c' : Nat} (h : ChannelHistory) (s : State) (hne : c' ≠ c) :
    channel c' (setChannel c h s) = channel c' s := by
  simp [channel, List.getElem?_set_ne (Ne.symm hne)]

/-- After the zero fill every slot is the zero history (41_config_ops R85). -/
theorem channel_zeroAllHistory {c : Nat} {s : State} (hc : c < nchMax s) :
    channel c (zeroAllHistory s) = some zeroHistory := by
  simp_all [channel, nchMax]

/-- A slot exists exactly below NCH_MAX. -/
theorem channel_isSome {c : Nat} {s : State} : (channel c s).isSome = true ↔ c < nchMax s := by
  simp [channel, nchMax]

end Sys2Proof.Machine
end

