-- ==== Sys2Proof/Laws/Ops.lean ====
section
/-! SUPPORT. What each shared operation can do, said once: the two sides of `whenLive`, each meaning in a live state, the
inversion of `exec` and of `step`. -/

namespace Sys2Proof.Machine

theorem whenLive_faulted {s : State} (b : Host.Outcome State Fault Refusal) (h : s.fault = true) :
    whenLive s b = .next (respond (.err s.fcode) s) := by
  simp [whenLive, answerFaulted, h]

theorem whenLive_live {s : State} (b : Host.Outcome State Fault Refusal) (h : s.fault = false) : whenLive s b = b := by
  simp [whenLive, h]

/-- In the fault state every instruction is answered ERR and changes nothing else (60_exceptions R125). -/
theorem exec_faulted {s : State} (i : Instr) (h : s.fault = true) : exec i s = .next (respond (.err s.fcode) s) := by
  cases i <;> exact whenLive_faulted _ h

theorem exec_init_ok {n : Nat} {s : State} (h : s.fault = false) (hn : countFits n s = true) :
    exec (.init n) s = .next (respond .ack (setNch n (zeroAllHistory s))) := by
  simp [exec, execInit, whenLive_live _ h, hn]

theorem exec_init_tooMany {n : Nat} {s : State} (h : s.fault = false) (hn : countFits n s = false) :
    exec (.init n) s = raiseFault .chanCount s := by
  simp [exec, execInit, whenLive_live _ h, hn]

/-- Every BEGIN, in one form. -/
theorem exec_beginInstr (ft : FilterType) (fs freq gain q : F) (s : State) :
    exec (beginInstr ft fs freq gain q) s = beginWith ft fs freq gain q s := by
  cases ft <;> rfl

theorem init_ne_beginInstr (n : Nat) (ft : FilterType) (fs freq gain q : F) : .init n ≠ beginInstr ft fs freq gain q := by
  cases ft <;> simp [beginInstr]

theorem smp_ne_beginInstr (c : Nat) (x : F) (ft : FilterType) (fs freq gain q : F) :
    .smp c x ≠ beginInstr ft fs freq gain q := by
  cases ft <;> simp [beginInstr]

theorem beginWith_live {s : State} (ft : FilterType) (fs freq gain q : F) (h : s.fault = false) :
    beginWith ft fs freq gain q s = .next (respond .ack (setCoef (design machineNum ft fs freq gain q) s)) :=
  whenLive_live _ h

theorem exec_smp_ok {c : Nat} {x : F} {s : State} {g : ChannelHistory} (h : s.fault = false)
    (hc : channelInRange c s = true) (hv : s.cv = true) (hg : channel c s = some g) :
    exec (.smp c x) s = .next (respond (.data c (recurrence machineNum s.coef g x).2)
      (setChannel c (recurrence machineNum s.coef g x).1 s)) := by
  simp [exec, execSmp, whenLive_live _ h, hc, hv, hg]

theorem exec_smp_outOfRange {c : Nat} {s : State} (x : F) (h : s.fault = false) (hc : channelInRange c s = false) :
    exec (.smp c x) s = raiseFault .chanRange s := by
  simp [exec, execSmp, whenLive_live _ h, hc]

theorem exec_smp_noCoef {c : Nat} {s : State} (x : F) (h : s.fault = false) (hc : channelInRange c s = true)
    (hv : s.cv = false) : exec (.smp c x) s = raiseFault .noCoef s := by
  simp [exec, execSmp, whenLive_live _ h, hc, hv]

/-- How an instruction can answer a next state: one case for each way (30_encoding R46, on decoded commands). -/
inductive Answers (s : State) : Instr → State → Prop where
  | faulted (i : Instr) (h : s.fault = true) : Answers s i (respond (.err s.fcode) s)
  | tooMany (n : Nat) (h : s.fault = false) (hn : countFits n s = false) :
      Answers s (.init n) (respond (.err (causeCode .chanCount)) (setFault .chanCount s))
  | established (n : Nat) (h : s.fault = false) (hn : countFits n s = true) :
      Answers s (.init n) (respond .ack (setNch n (zeroAllHistory s)))
  | designed (i : Instr) (ft : FilterType) (fs freq gain q : F) (hi : i = beginInstr ft fs freq gain q)
      (h : s.fault = false) : Answers s i (respond .ack (setCoef (design machineNum ft fs freq gain q) s))
  | outOfRange (c : Nat) (x : F) (h : s.fault = false) (hc : channelInRange c s = false) :
      Answers s (.smp c x) (respond (.err (causeCode .chanRange)) (setFault .chanRange s))
  | noCoef (c : Nat) (x : F) (h : s.fault = false) (hc : channelInRange c s = true) (hv : s.cv = false) :
      Answers s (.smp c x) (respond (.err (causeCode .noCoef)) (setFault .noCoef s))
  | filtered (c : Nat) (x : F) (g : ChannelHistory) (h : s.fault = false) (hc : channelInRange c s = true)
      (hv : s.cv = true) (hg : channel c s = some g) :
      Answers s (.smp c x) (respond (.data c (recurrence machineNum s.coef g x).2)
        (setChannel c (recurrence machineNum s.coef g x).1 s))

theorem answers_of_begin {s t : State} (ft : FilterType) (fs freq gain q : F) (hf : s.fault = false)
    (h : exec (beginInstr ft fs freq gain q) s = .next t) : Answers s (beginInstr ft fs freq gain q) t := by
  rw [exec_beginInstr, beginWith_live _ _ _ _ _ hf] at h
  cases h
  exact .designed _ ft fs freq gain q rfl hf

theorem answers_of_init {s t : State} (n : Nat) (hf : s.fault = false) (h : exec (.init n) s = .next t) :
    Answers s (.init n) t := by
  cases hn : countFits n s with
  | true => rw [exec_init_ok hf hn] at h; cases h; exact .established n hf hn
  | false => rw [exec_init_tooMany hf hn] at h; cases h; exact .tooMany n hf hn

theorem answers_of_smp {s t : State} (c : Nat) (x : F) (hf : s.fault = false) (h : exec (.smp c x) s = .next t) :
    Answers s (.smp c x) t := by
  cases hc : channelInRange c s with
  | false => rw [exec_smp_outOfRange x hf hc] at h; cases h; exact .outOfRange c x hf hc
  | true =>
    cases hv : s.cv with
    | false => rw [exec_smp_noCoef x hf hc hv] at h; cases h; exact .noCoef c x hf hc hv
    | true =>
      cases hg : channel c s with
      | none => simp [exec, execSmp, whenLive_live _ hf, hc, hv, hg] at h
      | some g => rw [exec_smp_ok hf hc hv hg] at h; cases h; exact .filtered c x g hf hc hv hg

/-- The inversion of `exec`: proofs about its next states start here. -/
theorem answers_of_exec {i : Instr} {s t : State} (h : exec i s = .next t) : Answers s i t := by
  cases hf : s.fault with
  | true => rw [exec_faulted i hf] at h; cases h; exact .faulted i hf
  | false =>
    cases i with
    | init n => exact answers_of_init n hf h
    | beginPeak fs freq gain q => exact answers_of_begin .peak fs freq gain q hf h
    | beginHp fs freq gain q => exact answers_of_begin .highPass fs freq gain q hf h
    | beginLp fs freq gain q => exact answers_of_begin .lowPass fs freq gain q hf h
    | beginLs fs freq gain q => exact answers_of_begin .lowShelf fs freq gain q hf h
    | beginHs fs freq gain q => exact answers_of_begin .highShelf fs freq gain q hf h
    | smp c x => exact answers_of_smp c x hf h

theorem acceptWord_faulted {s : State} (w : CmdWord) (h : s.fault = true) :
    acceptWord w s = .next (respond (.err s.fcode) s) :=
  whenLive_faulted _ h

theorem acceptWord_illegal {s : State} {w : CmdWord} {e : Illegal} (h : s.fault = false) (hd : decode w = .error e) :
    acceptWord w s = raiseFault .illegalCmd s := by
  simp [acceptWord, whenLive_live _ h, hd]

/-- In any state a word that decodes does what its instruction does (30_encoding R46). -/
theorem acceptWord_ok {s : State} {w : CmdWord} {i : Instr} (hd : decode w = .ok i) : acceptWord w s = exec i s := by
  cases hf : s.fault with
  | true => rw [acceptWord_faulted _ hf, exec_faulted _ hf]
  | false => simp [acceptWord, whenLive_live _ hf, hd]

theorem step_idle {s : State} (h : s.cmdIn = []) : step s = .next s := by
  simp [step, portStep, h]

theorem step_command {s : State} {w : CmdWord} {rest : List HostInput} (h : s.cmdIn = .command w :: rest) :
    step s = acceptWord w (setInputs rest s) := by
  simp [step, portStep, h]

theorem step_hwReset {s : State} {rest : List HostInput} (h : s.cmdIn = .hwReset :: rest) :
    step s = .next (hardwareReset (setInputs rest s)) := by
  simp [step, portStep, h]

/-- How a step can answer a next state. -/
inductive Steps (s : State) : State → Prop where
  | idle (h : s.cmdIn = []) : Steps s s
  | reset (rest : List HostInput) (h : s.cmdIn = .hwReset :: rest) : Steps s (hardwareReset (setInputs rest s))
  | faulted (w : CmdWord) (rest : List HostInput) (h : s.cmdIn = .command w :: rest) (hf : s.fault = true) :
      Steps s (respond (.err s.fcode) (setInputs rest s))
  | illegal (w : CmdWord) (e : Illegal) (rest : List HostInput) (h : s.cmdIn = .command w :: rest) (hf : s.fault = false)
      (hd : decode w = .error e) :
      Steps s (respond (.err (causeCode .illegalCmd)) (setFault .illegalCmd (setInputs rest s)))
  | executed (w : CmdWord) (i : Instr) (rest : List HostInput) (t : State) (h : s.cmdIn = .command w :: rest)
      (hf : s.fault = false) (hd : decode w = .ok i) (ha : Answers (setInputs rest s) i t) : Steps s t

/-- The inversion of `step`: proofs about a step's next states start here. -/
theorem steps_of_step {s t : State} (h : step s = .next t) : Steps s t := by
  cases hc : s.cmdIn with
  | nil => rw [step_idle hc] at h; cases h; exact .idle hc
  | cons a rest =>
    cases a with
    | hwReset => rw [step_hwReset hc] at h; cases h; exact .reset rest hc
    | command w =>
      rw [step_command hc] at h
      cases hf : s.fault with
      | true => rw [acceptWord_faulted (s := setInputs rest s) w hf] at h; cases h; exact .faulted w rest hc hf
      | false =>
        cases hd : decode w with
        | error e =>
          rw [acceptWord_illegal (s := setInputs rest s) hf hd] at h
          cases h
          exact .illegal w e rest hc hf hd
        | ok i => exact .executed w i rest t hc hf hd (answers_of_exec (acceptWord_ok hd ▸ h))

end Sys2Proof.Machine
end

