-- ==== Sys2Proof/Laws/PerInstr.lean ====
section
/-! SUPPORT. One lemma for each constructor: the encoding of a well-formed instruction is selected by that instruction's own
row of the opcode table, and that row builds the instruction from it (30_encoding R53). -/

namespace Sys2Proof

/-- The instruction's own row of the opcode table (30_encoding R53). -/
def rowOf : Instr → Row
  | .init _ => rowInit
  | .beginPeak _ _ _ _ => rowBeginPeak
  | .beginHp _ _ _ _ => rowBeginHp
  | .beginLp _ _ _ _ => rowBeginLp
  | .beginLs _ _ _ _ => rowBeginLs
  | .beginHs _ _ _ _ => rowBeginHs
  | .smp _ _ => rowSmp

end Sys2Proof

namespace Sys2Proof.Laws.OwnRow

/-- The instruction's word is selected by the instruction's own row, and where the instruction is well-formed the row builds
it from the word. -/
def Statement (i : Instr) : Prop :=
  (rowOf i).selects (encode i) = true ∧ (i.WellFormed → (rowOf i).build (encode i) = i)

theorem init (n : Nat) : Statement (.init n) := by
  refine ⟨by simp [rowOf, encode, rowInit_selects], fun h => ?_⟩
  have : n < 256 := of_decide_eq_true h
  simpa [rowOf, rowInit, encode] using this

theorem beginPeak (fs freq gain q : F) : Statement (.beginPeak fs freq gain q) := by
  refine ⟨by simp [rowOf, encode, encodeBegin, filterTypeCode, rowBeginPeak_selects], fun _ => ?_⟩
  simp [rowOf, rowBeginPeak, encode, encodeBegin]

theorem beginHp (fs freq gain q : F) : Statement (.beginHp fs freq gain q) := by
  refine ⟨by simp [rowOf, encode, encodeBegin, filterTypeCode, rowBeginHp_selects], fun _ => ?_⟩
  simp [rowOf, rowBeginHp, encode, encodeBegin]

theorem beginLp (fs freq gain q : F) : Statement (.beginLp fs freq gain q) := by
  refine ⟨by simp [rowOf, encode, encodeBegin, filterTypeCode, rowBeginLp_selects], fun _ => ?_⟩
  simp [rowOf, rowBeginLp, encode, encodeBegin]

theorem beginLs (fs freq gain q : F) : Statement (.beginLs fs freq gain q) := by
  refine ⟨by simp [rowOf, encode, encodeBegin, filterTypeCode, rowBeginLs_selects], fun _ => ?_⟩
  simp [rowOf, rowBeginLs, encode, encodeBegin]

theorem beginHs (fs freq gain q : F) : Statement (.beginHs fs freq gain q) := by
  refine ⟨by simp [rowOf, encode, encodeBegin, filterTypeCode, rowBeginHs_selects], fun _ => ?_⟩
  simp [rowOf, rowBeginHs, encode, encodeBegin]

theorem smp (c : Nat) (x : F) : Statement (.smp c x) := by
  refine ⟨by simp [rowOf, encode, rowSmp_selects], fun h => ?_⟩
  have : c < 256 := of_decide_eq_true h
  simpa [rowOf, rowSmp, encode] using this

end Sys2Proof.Laws.OwnRow
end

