-- ==== Sys2Proof/Laws/Rounding.lean ====
section
/-! SUPPORT. The real value of a pattern, and when a pattern is `round(r)` (40_numerics R66, R67): a positive real between
the values of two neighbouring magnitudes rounds to the nearer one; a value that F has rounds to itself. -/

namespace Sys2Proof.Machine

/-- The value is the sign times the magnitude, in units of 2^-149. -/
theorem realValue_eq (a : F) :
    realValue a = (if signBit a then -1 else 1) * (magUnits a : ℝ) * (2 : ℝ) ^ (-149 : ℤ) := by
  unfold realValue magUnits unitsOfMag
  rw [expField_eq, fracField_eq, mul_assoc]
  congr 1
  by_cases h : magBits a / 2 ^ 23 = 0
  · rw [if_pos h, if_pos h]
  · rw [if_neg h, if_neg h]
    have e : (2 : ℝ) ^ (((magBits a / 2 ^ 23 : ℕ) : ℤ) - 150) =
        (2 : ℝ) ^ (magBits a / 2 ^ 23 - 1) * (2 : ℝ) ^ (-149 : ℤ) := by
      rw [← zpow_natCast (2 : ℝ) (magBits a / 2 ^ 23 - 1), ← zpow_add₀ (by norm_num)]
      congr 1
      omega
    push_cast at e ⊢
    rw [e]
    ring

theorem realValue_units (a : F) : realValue a = (units a : ℝ) * (2 : ℝ) ^ (-149 : ℤ) := by
  rw [realValue_eq, units]
  split <;> push_cast <;> ring

theorem abs_realValue (a : F) : |realValue a| = (magUnits a : ℝ) * (2 : ℝ) ^ (-149 : ℤ) := by
  rw [realValue_eq, abs_mul, abs_mul, abs_of_nonneg (by positivity : (0 : ℝ) ≤ magUnits a),
    abs_of_pos (by positivity : (0 : ℝ) < (2 : ℝ) ^ (-149 : ℤ))]
  cases signBit a <;> simp

theorem realValue_fneg (a : F) : realValue (fnegBits a) = -realValue a := by
  rw [realValue_units, realValue_units, units_fneg]
  push_cast
  ring

/-- The overflow threshold in units: half way between the largest finite value and the next binade (40_numerics R67). -/
theorem threshold_units : ((2 : ℝ) ^ 25 - 1) * (2 : ℝ) ^ 103 = ((2 : ℝ) ^ 25 - 1) * 2 ^ 252 * (2 : ℝ) ^ (-149 : ℤ) := by
  have e : (2 : ℝ) ^ 252 * (2 : ℝ) ^ (-149 : ℤ) = 2 ^ 103 := by
    rw [← zpow_natCast (2 : ℝ) 252, ← zpow_add₀ (by norm_num), ← zpow_natCast (2 : ℝ) 103]
    norm_num
  rw [mul_assoc, e]

/-- Which of the two neighbours k and k + 1 of a real count of units x is chosen: `RoundsUp` for a real. -/
def RealRoundsUp (k : Nat) (x : ℝ) : Prop :=
  (unitsOfMag k : ℝ) + unitsOfMag (k + 1) < 2 * x ∨ ((unitsOfMag k : ℝ) + unitsOfMag (k + 1) = 2 * x ∧ k % 2 = 1)

theorem isFinite_pack {neg : Bool} {k : Nat} (hk : k < infBits) : isFinite (pack neg k) = true := by
  have : k < 2 ^ 31 := by unfold infBits at hk; omega
  rw [isFinite_iff, magBits_pack this]
  exact hk

/-- A real x with values A and B on either side: the nearer of the two is as near as any y outside, and no y but the other
one is equally near. -/
theorem nearest_of_neighbours {A B x y : ℝ} (hA : A ≤ x) (hB : x < B) (hy : y ≤ A ∨ B ≤ y) :
    (A + B ≤ 2 * x → |B - x| ≤ |y - x| ∧ (|B - x| = |y - x| → y ≠ B → A + B = 2 * x)) ∧
      (2 * x ≤ A + B → |A - x| ≤ |y - x| ∧ (|A - x| = |y - x| → y ≠ A → A + B = 2 * x)) := by
  rw [abs_of_pos (by linarith : 0 < B - x), abs_of_nonpos (by linarith : A - x ≤ 0)]
  rcases hy with h | h
  · rw [abs_of_nonpos (by linarith : y - x ≤ 0)]
    exact ⟨fun h' => ⟨by linarith, fun he _ => by linarith⟩,
      fun h' => ⟨by linarith, fun he hne => absurd (by linarith) hne⟩⟩
  · rw [abs_of_pos (by linarith : 0 < y - x)]
    exact ⟨fun h' => ⟨by linarith, fun he hne => absurd (by linarith) hne⟩,
      fun h' => ⟨by linarith, fun he _ => by linarith⟩⟩

theorem unitsOfMag_infBits_real : (unitsOfMag infBits : ℝ) = 2 ^ 25 * 2 ^ 252 := by
  rw [unitsOfMag_infBits, ← pow_add, Nat.cast_pow, Nat.cast_ofNat]

theorem unitsOfMag_maxFinite_real : (unitsOfMag (infBits - 1) : ℝ) = (2 ^ 24 - 1) * (2 * 2 ^ 252) := by
  rw [unitsOfMag_maxFinite, ← pow_succ', Nat.cast_mul, Nat.cast_pow, Nat.cast_ofNat]
  norm_num

/-- At or above the threshold, the choice is the infinity. -/
theorem chosen_inf {x : ℝ} {k : Nat} (hx : ((2 : ℝ) ^ 25 - 1) * 2 ^ 252 ≤ x) (h2 : x < unitsOfMag (k + 1)) :
    infBits ≤ k ∨ (k + 1 = infBits ∧ RealRoundsUp k x) := by
  have hpos : (0 : ℝ) < 2 ^ 252 := by positivity
  have hk : infBits - 1 ≤ k := by
    by_contra hc
    have : (unitsOfMag (k + 1) : ℝ) ≤ unitsOfMag (infBits - 1) := by
      exact_mod_cast unitsOfMag_strictMono.monotone (by omega)
    rw [unitsOfMag_maxFinite_real] at this
    nlinarith
  rcases Nat.lt_or_ge k infBits with hk' | hk'
  · have hk1 : k + 1 = infBits := by omega
    refine .inr ⟨hk1, ?_⟩
    unfold RealRoundsUp
    rw [hk1, show k = infBits - 1 by omega, unitsOfMag_infBits_real, unitsOfMag_maxFinite_real]
    generalize (2 : ℝ) ^ 252 = P at *
    rcases eq_or_lt_of_le hx with he | hl
    · exact .inr ⟨by linarith, by decide⟩
    · exact .inl (by linarith)
  · exact .inl hk'

/-- Below the threshold, the choice is finite. -/
theorem chosen_finite {x : ℝ} {k : Nat} (hx : x < ((2 : ℝ) ^ 25 - 1) * 2 ^ 252) (h1 : (unitsOfMag k : ℝ) ≤ x) :
    k < infBits ∧ (RealRoundsUp k x → k + 1 < infBits) := by
  have hpos : (0 : ℝ) < 2 ^ 252 := by positivity
  have hk : k < infBits := by
    by_contra hc
    have : (unitsOfMag infBits : ℝ) ≤ unitsOfMag k := by exact_mod_cast unitsOfMag_strictMono.monotone (by omega)
    rw [unitsOfMag_infBits_real] at this
    nlinarith
  refine ⟨hk, fun hup => ?_⟩
  by_contra hc
  have hk1 : k + 1 = infBits := by omega
  have hs : (unitsOfMag k : ℝ) + unitsOfMag (k + 1) ≤ 2 * x := by
    rcases hup with h | ⟨h, _⟩ <;> exact h.le
  rw [hk1, show k = infBits - 1 by omega, unitsOfMag_infBits_real, unitsOfMag_maxFinite_real] at hs
  generalize (2 : ℝ) ^ 252 = P at *
  linarith

/-- What it is to round (40_numerics R67), for every positive real count of units x and either sign: x lies between the values
of the magnitudes k and k + 1, and b is the nearer, the even one of two equally near, cut off at infinity. -/
theorem isRounded_of_neighbours (neg : Bool) {x : ℝ} {k : Nat} {b : F} (hx : 0 < x) (h1 : (unitsOfMag k : ℝ) ≤ x)
    (h2 : x < unitsOfMag (k + 1))
    (hb : (RealRoundsUp k x ∧ b = pack neg (min (k + 1) infBits)) ∨ (¬RealRoundsUp k x ∧ b = pack neg (min k infBits))) :
    IsRounded ((if neg then -1 else 1) * x * (2 : ℝ) ^ (-149 : ℤ)) b := by
  set u : ℝ := (2 : ℝ) ^ (-149 : ℤ) with hu
  have hu0 : 0 < u := by positivity
  have hsgn : ∀ z : ℝ, |(if neg then -1 else 1) * z * u| = |z| * u := by
    intro z
    cases neg <;> simp [abs_mul, abs_of_pos hu0]
  have hlt : (if neg then -1 else 1) * x * u < 0 ↔ neg = true := by
    have := mul_pos hx hu0
    cases neg
    · simp only [Bool.false_eq_true, if_false, one_mul, iff_false]
      linarith
    · simp only [if_true, iff_true]
      linarith
  unfold IsRounded
  rw [hsgn, abs_of_pos hx, threshold_units]
  split
  · rename_i h
    have hbi : b = infF neg := by
      have hc := chosen_inf (le_of_mul_le_mul_right h hu0) h2
      rcases hb with ⟨_, rfl⟩ | ⟨hn, rfl⟩
      · rw [min_eq_right (by omega), infF]
      · rw [min_eq_right (hc.resolve_right fun h' => hn h'.2), infF]
    subst hbi
    exact ⟨isInf_infF neg, by rw [signBit_infF, hlt]⟩
  · rename_i h
    have hf := chosen_finite (lt_of_not_ge fun hc => h (mul_le_mul_of_nonneg_right hc hu0.le)) h1
    obtain ⟨j, hj, rfl, hcase⟩ : ∃ j, j < infBits ∧ b = pack neg j ∧
        ((j = k + 1 ∧ RealRoundsUp k x) ∨ (j = k ∧ ¬RealRoundsUp k x)) := by
      rcases hb with ⟨hup, rfl⟩ | ⟨hn, rfl⟩
      · exact ⟨k + 1, hf.2 hup, by rw [min_eq_left (hf.2 hup).le], .inl ⟨rfl, hup⟩⟩
      · exact ⟨k, hf.1, by rw [min_eq_left hf.1.le], .inr ⟨rfl, hn⟩⟩
    have hj31 : j < 2 ^ 31 := by unfold infBits at hj; omega
    have hbv : realValue (pack neg j) = (if neg then -1 else 1) * (unitsOfMag j : ℝ) * u := by
      rw [realValue_eq, signBit_pack hj31, magUnits, magBits_pack hj31]
    refine ⟨isFinite_pack hj, by rw [signBit_pack hj31, hlt], fun v _ => ?_⟩
    obtain ⟨y, hy, hyc⟩ : ∃ y : ℝ, realValue v = (if neg then -1 else 1) * y * u ∧
        (y ≤ unitsOfMag k ∨ (unitsOfMag (k + 1) : ℝ) ≤ y) := by
      refine ⟨(if signBit v = neg then 1 else -1) * (magUnits v : ℝ), ?_, ?_⟩
      · rw [realValue_eq]
        cases neg <;> cases signBit v <;> simp [hu]
      · have hm : (0 : ℝ) ≤ magUnits v := Nat.cast_nonneg _
        have hk0 : (0 : ℝ) ≤ unitsOfMag k := Nat.cast_nonneg _
        by_cases hs : signBit v = neg
        · rw [if_pos hs, one_mul]
          rcases Nat.lt_or_ge k (magBits v) with h' | h'
          · exact .inr (by exact_mod_cast unitsOfMag_strictMono.monotone h')
          · exact .inl (by exact_mod_cast unitsOfMag_strictMono.monotone h')
        · rw [if_neg hs]
          exact .inl (by linarith)
    have key : |(unitsOfMag j : ℝ) - x| ≤ |y - x| ∧
        (|(unitsOfMag j : ℝ) - x| = |y - x| → y ≠ unitsOfMag j → j % 2 = 0) := by
      have near := nearest_of_neighbours h1 h2 hyc
      rcases hcase with ⟨rfl, hup⟩ | ⟨rfl, hn⟩
      · obtain ⟨ha, hb⟩ := near.1 (by rcases hup with h | ⟨h, _⟩ <;> exact h.le)
        refine ⟨ha, fun he hne => ?_⟩
        rcases hup with h | ⟨_, h⟩
        · exact absurd (hb he hne) h.ne
        · omega
      · unfold RealRoundsUp at hn
        push Not at hn
        obtain ⟨ha, hb⟩ := near.2 hn.1
        refine ⟨ha, fun he hne => ?_⟩
        have := hn.2 (hb he hne)
        omega
    rw [hbv, hy, ← sub_mul, ← mul_sub, ← sub_mul, ← mul_sub, hsgn, hsgn]
    refine ⟨mul_le_mul_of_nonneg_right key.1 hu0.le, fun he hne => ?_⟩
    have hpar := key.2 (mul_right_cancel₀ hu0.ne' he) fun h => hne (by rw [h])
    rw [BitVec.getLsbD, Nat.testBit_eq_decide_div_mod_eq, toNat_pack hj31, decide_eq_false_iff_not]
    split <;> omega

/-- A finite value of F rounds to itself. -/
theorem isRounded_exact {r : ℝ} {b w : F} (h : IsRounded r b) (hw : isFinite w = true) (hv : realValue w = r) :
    isFinite b = true ∧ realValue b = r := by
  have hlt : |r| < ((2 : ℝ) ^ 25 - 1) * (2 : ℝ) ^ 103 := by
    rw [← hv, abs_realValue, threshold_units]
    refine mul_lt_mul_of_pos_right ?_ (by positivity)
    have hm : (magUnits w : ℝ) ≤ unitsOfMag (infBits - 1) := by
      have : magBits w ≤ infBits - 1 := by rw [isFinite_iff] at hw; omega
      exact_mod_cast unitsOfMag_strictMono.monotone this
    rw [unitsOfMag_maxFinite_real] at hm
    have hpos : (0 : ℝ) < 2 ^ 252 := by positivity
    generalize (2 : ℝ) ^ 252 = P at *
    linarith
  unfold IsRounded at h
  rw [if_neg (not_le.2 hlt)] at h
  refine ⟨h.1, ?_⟩
  have h0 := (h.2.2 w hw).1
  rw [hv, sub_self, abs_zero] at h0
  linarith [abs_nonpos_iff.1 h0]

end Sys2Proof.Machine
end

