-- ==== Sys2Proof/Tests/Slice0.lean ====
section
/-! SUPPORT. Tests: words, responses and values taken from the spec (95_test_vectors and the rules' own examples), one step
each; then, for every statement with hypotheses, a witness that meets them. -/

namespace Sys2Proof.Tests

open Sys2Proof.Machine

/-! ## Well-formedness (30_encoding R47, R58): one ill-formed term for each check -/

theorem test_wf_init_max : Instr.WellFormed (.init 255) := by decide
theorem test_wf_init_refused : ¬Instr.WellFormed (.init 256) := by decide
theorem test_wf_smp_max : Instr.WellFormed (.smp 255 0x7FC00000#32) := by decide
theorem test_wf_smp_refused : ¬Instr.WellFormed (.smp 256 0x3F800000#32) := by decide
theorem test_wf_begin_any : Instr.WellFormed (.beginHs 0x7FC00000#32 0xFF800000#32 0x00000001#32 0x80000000#32) := by decide

/-! ## Decoding: words of 95_test_vectors V1 to V6 and V15, one for each constructor -/

theorem test_decode_init : decode 0x100200000000000000000000000000000000#144 = .ok (.init 2) := by decide
theorem test_decode_init_max : decode 0x10FF00000000000000000000000000000000#144 = .ok (.init 255) := by decide
theorem test_decode_peak : decode 0x2000472C4400447A0000400000003F800000#144 =
    .ok (.beginPeak 0x472C4400#32 0x447A0000#32 0x40000000#32 0x3F800000#32) := by decide
theorem test_decode_hp : decode 0x2100472C4400447A0000BF8000003F3504F3#144 =
    .ok (.beginHp 0x472C4400#32 0x447A0000#32 0xBF800000#32 0x3F3504F3#32) := by decide
theorem test_decode_lp : decode 0x2200472C4400447A00003F8000003F3504F3#144 =
    .ok (.beginLp 0x472C4400#32 0x447A0000#32 0x3F800000#32 0x3F3504F3#32) := by decide
theorem test_decode_ls : decode 0x2300473B800043480000400000003F3504F3#144 =
    .ok (.beginLs 0x473B8000#32 0x43480000#32 0x40000000#32 0x3F3504F3#32) := by decide
theorem test_decode_hs : decode 0x2400473B800045FA00003F0000003F3504F3#144 =
    .ok (.beginHs 0x473B8000#32 0x45FA0000#32 0x3F000000#32 0x3F3504F3#32) := by decide
theorem test_decode_smp : decode 0x30010000000000000000000000003F800000#144 = .ok (.smp 1 0x3F800000#32) := by decide

/-- The illegal rows of 95_test_vectors V15, each under its case of 30_encoding R54. -/
theorem test_decode_illegal :
    decode 0#144 = .error .opcodeReserved ∧
    decode 0xFFFFFFFFFFFFFFFFFFFFFFFFFFFFFFFFFFFF#144 = .error .opcodeReserved ∧
    decode 0x400000000000000000000000000000000000#144 = .error .opcodeReserved ∧
    decode 0x250000000000000000000000000000000000#144 = .error .beginTypeOrChannel ∧
    decode 0x2001472C4400447A0000400000003F800000#144 = .error .beginTypeOrChannel ∧
    decode 0x30000000000000000000000001003F800000#144 = .error .smpFieldNotZero ∧
    decode 0x31000000000000000000000000003F800000#144 = .error .smpFieldNotZero ∧
    decode 0x100200000000000000000000000000000001#144 = .error .initFieldNotZero := by decide

/-- Encoding gives the words of V1, V6 and V15. -/
theorem test_encode :
    encode (.init 2) = 0x100200000000000000000000000000000000#144 ∧
    encode (.beginPeak 0x472C4400#32 0x447A0000#32 0x40000000#32 0x3F800000#32) =
      0x2000472C4400447A0000400000003F800000#144 ∧
    encode (.beginHs 0x473B8000#32 0x45FA0000#32 0x3F000000#32 0x3F3504F3#32) =
      0x2400473B800045FA00003F0000003F3504F3#144 ∧
    encode (.smp 1 0x3F800000#32) = 0x30010000000000000000000000003F800000#144 := by decide

/-- Text (30_encoding R58, R59): `0.1` is `0x3DCCCCCD`, a comment is no command, a channel above 255 is refused. -/
theorem test_assemble :
    assembleLine "SMP 0, 0.1 ; x".toList = some (some (.smp 0 0x3DCCCCCD#32)) ∧
    assembleLine "BEGIN.HS 48000, 8000, 0.5, 0x3F3504F3".toList =
      some (some (.beginHs 0x473B8000#32 0x45FA0000#32 0x3F000000#32 0x3F3504F3#32)) ∧
    assembleLine "SMP 1, -inf".toList = some (some (.smp 1 0xFF800000#32)) ∧
    assembleLine "; x".toList = some none ∧ assembleLine "INIT 256".toList = none := by decide +kernel

/-! ## Small states with NCH_MAX = 2 (95_test_vectors V16) -/

/-- The coefficients 1, 0, 0, 1, 0, 0 (95_test_vectors V11). -/
def passCoef : Coef :=
  { a0 := 0x3F800000#32, a1 := 0#32, a2 := 0#32, b0 := 0x3F800000#32, b1 := 0#32, b2 := 0#32 }

/-- Two channels of zero history, no fault. -/
def live (nch : Nat) (cv : Bool) (inputs : List HostInput) : State :=
  { coef := passCoef, cv := cv, nch := nch, hist := [zeroHistory, zeroHistory], fault := false, fcode := 0,
    cmdIn := inputs, rspOut := [], resets := 1 }

/-- The same in the fault state. -/
def dead (code : BitVec 4) (inputs : List HostInput) : State := { live 2 true inputs with fault := true, fcode := code }

/-- A channel with samples in it. -/
def played : ChannelHistory :=
  { x := { d0 := 0x3F800000#32, d1 := 0x40000000#32, d2 := 0x41100000#32 }
    y := { d0 := 0x40800000#32, d1 := 0x41000000#32, d2 := 0x41100000#32 } }

/-- `INIT 2` (V15). -/
def wInit2 : CmdWord := 0x100200000000000000000000000000000000#144
/-- `BEGIN.PEAK 44100, 1000, 2.0, 1.0` (V1). -/
def wPeak : CmdWord := 0x2000472C4400447A0000400000003F800000#144
/-- `SMP 1, 1.0` (V15). -/
def wSmp1 : CmdWord := 0x30010000000000000000000000003F800000#144

/-- What a test looks at in an outcome: FAULT, FCODE, NCH, CV and the responses; none where there is no next state. -/
def seen : Host.Outcome State Fault Refusal → Option (Bool × BitVec 4 × Nat × Bool × List RspWord)
  | .next t => some (t.fault, t.fcode, t.nch, t.cv, t.rspOut)
  | .fault _ => none
  | .refused _ => none

/-! ## INIT (41_config_ops R85: its example) -/

theorem test_init_zeroes :
    step { live 1 true [.command wInit2] with hist := [played, played] } =
      .next { live 2 true [] with rspOut := [0x10000000000#44] } := rfl

theorem test_init_beyond_storage :
    seen (step (live 0 false [.command 0x100300000000000000000000000000000000#144])) =
      some (true, 4, 0, false, [0xF0000000004#44]) := by decide

/-! ## Faults (95_test_vectors V16) -/

theorem test_smp_without_channels :
    seen (step (live 0 false [.command 0x30000000000000000000000000003F800000#144])) =
      some (true, 2, 0, false, [0xF0000000002#44]) := by decide

theorem test_smp_without_coefficients :
    seen (step (live 1 false [.command 0x30000000000000000000000000003F800000#144])) =
      some (true, 3, 1, false, [0xF0000000003#44]) := by decide

theorem test_illegal_word : seen (step (live 0 false [.command 0#144])) = some (true, 1, 0, false, [0xF0000000001#44]) := by
  decide

theorem test_fault_is_sticky_init : seen (step (dead 2 [.command wInit2])) = some (true, 2, 2, true, [0xF0000000002#44]) := by
  decide
theorem test_fault_is_sticky_begin : seen (step (dead 2 [.command wPeak])) = some (true, 2, 2, true, [0xF0000000002#44]) := by
  decide
theorem test_fault_is_sticky_smp : seen (step (dead 2 [.command wSmp1])) = some (true, 2, 2, true, [0xF0000000002#44]) := by
  decide
theorem test_fault_is_sticky_illegal : seen (step (dead 2 [.command 0#144])) = some (true, 2, 2, true, [0xF0000000002#44]) := by
  decide

theorem test_begin_before_init :
    seen (step (live 0 false [.command wPeak])) = some (false, 0, 0, true, [0x10000000000#44]) := rfl

theorem test_reset_leaves_fault_state :
    seen (step (dead 4 [.hwReset])) = some (false, 0, 0, false, []) := rfl

/-! ## The recurrence (95_test_vectors V11 a, d, f, h, i) and SMP in a state -/

/-- The numerics with REF as sine and cosine (40_numerics R77); its NaN patterns are some configuration's. -/
def refNum : Sys2Proof.Machine.Num := binary32 (withRef default)

theorem test_recurrence_a :
    recurrence refNum
      { a0 := 0x40000000#32, a1 := 0x3F800000#32, a2 := 0x3F000000#32, b0 := 0x3F800000#32, b1 := 0x40000000#32,
        b2 := 0x40400000#32 } played 0x40400000#32 =
    ({ x := { d0 := 0x40400000#32, d1 := 0x3F800000#32, d2 := 0x40000000#32 },
       y := { d0 := 0x3FC00000#32, d1 := 0x40800000#32, d2 := 0x41000000#32 } }, 0x3FC00000#32) := by decide +kernel

theorem test_recurrence_nan :
    isNaN (recurrence refNum { passCoef with a0 := 0#32 } zeroHistory 0#32).2 = true ∧
    isNaN (recurrence refNum { passCoef with b1 := 0x3F800000#32 }
      { x := { d0 := 0x7F800000#32, d1 := 0#32, d2 := 0#32 }, y := { d0 := 0x7F800000#32, d1 := 0#32, d2 := 0#32 } }
      0xFF800000#32).2 = true := by decide +kernel

theorem test_recurrence_subnormal :
    (recurrence refNum { passCoef with a0 := 0x40000000#32 } zeroHistory 0x00000001#32).2 = 0x00000000#32 ∧
    (recurrence refNum { passCoef with a0 := 0x40000000#32 } zeroHistory 0x00000003#32).2 = 0x00000002#32 := by
  decide +kernel

/-- V12, sample 0, as a recurrence on the coefficients of V1. -/
theorem test_recurrence_impulse :
    (recurrence refNum
      { a0 := 0x3F866D0A#32, a1 := 0xBFFD67F4#32, a2 := 0x3F7325ED#32, b0 := 0x3F8CDA13#32, b1 := 0xBFFD67F4#32,
        b2 := 0x3F664BD9#32 } zeroHistory 0x3F800000#32).2 = 0x3F861E66#32 := by decide +kernel

theorem test_smp_one_step :
    (match step { live 2 true [.command wSmp1] with hist := [played, zeroHistory] } with
      | .next t => (cellX t 0 0, cellX t 1 0, t.cmdIn, t.rspOut.length)
      | _ => (none, none, [], 0)) = (some 0x3F800000#32, some 0x3F800000#32, [], 1) := rfl

/-! ## The five designs (95_test_vectors V1, V3 to V6, V9, V10) -/

theorem test_design_peak : design refNum .peak 0x472C4400#32 0x447A0000#32 0x40000000#32 0x3F800000#32 =
    { a0 := 0x3F866D0A#32, a1 := 0xBFFD67F4#32, a2 := 0x3F7325ED#32, b0 := 0x3F8CDA13#32, b1 := 0xBFFD67F4#32,
      b2 := 0x3F664BD9#32 } := by decide +kernel
theorem test_design_hp : design refNum .highPass 0x472C4400#32 0x447A0000#32 0xBF800000#32 0x3F3504F3#32 =
    { a0 := 0x3F8CDA13#32, a1 := 0xBFFD67F4#32, a2 := 0x3F664BD9#32, b0 := 0x3F7EB3FA#32, b1 := 0xBFFEB3FA#32,
      b2 := 0x3F7EB3FA#32 } := by decide +kernel
theorem test_design_lp : design refNum .lowPass 0x472C4400#32 0x447A0000#32 0x3F800000#32 0x3F3504F3#32 =
    { a0 := 0x3F8CDA13#32, a1 := 0xBFFD67F4#32, a2 := 0x3F664BD9#32, b0 := 0x3BA60300#32, b1 := 0x3C260300#32,
      b2 := 0x3BA60300#32 } := by decide +kernel
theorem test_design_ls : design refNum .lowShelf 0x473B8000#32 0x43480000#32 0x40000000#32 0x3F3504F3#32 =
    { a0 := 0x4049B841#32, a1 := 0xC0B4F766#32, a2 := 0x40204CFF#32, b0 := 0x405251E1#32, b1 := 0xC0B4F1C8#32,
      b2 := 0x4017BE9B#32 } := by decide +kernel
theorem test_design_hs : design refNum .highShelf 0x473B8000#32 0x45FA0000#32 0x3F000000#32 0x3F3504F3#32 =
    { a0 := 0x404ADB2D#32, a1 := 0xC012BEC3#32, a2 := 0x3F099840#32, b0 := 0x40022FA6#32, b1 := 0xBF4AFB0B#32,
      b2 := 0x3E31196F#32 } := by decide +kernel
/-- V9 (for any sine and cosine): zero frequency. -/
theorem test_design_zero_frequency : design (binary32 default) .lowPass 0x472C4400#32 0#32 0x3F800000#32 0x3F800000#32 =
    { a0 := 0x3F800000#32, a1 := 0xC0000000#32, a2 := 0x3F800000#32, b0 := 0#32, b1 := 0#32, b2 := 0#32 } := by
  decide +kernel
/-- V10: gain +0 gives A0 = +inf and A2 = -inf, and B0 = B2 = 1. -/
theorem test_design_gain_zero : design refNum .peak 0x472C4400#32 0x447A0000#32 0#32 0x3F800000#32 =
    { a0 := 0x7F800000#32, a1 := 0xBFFD67F4#32, a2 := 0xFF800000#32, b0 := 0x3F800000#32, b1 := 0xBFFD67F4#32,
      b2 := 0x3F800000#32 } := by decide +kernel
/-- V10: fs = +0 makes all six NaNs. -/
theorem test_design_rate_zero :
    let k := design (binary32 default) .peak 0#32 0x447A0000#32 0x40000000#32 0x3F800000#32
    (isNaN k.a0 && isNaN k.a1 && isNaN k.a2 && isNaN k.b0 && isNaN k.b1 && isNaN k.b2) = true := by decide +kernel

/-! ## The first instruction after reset, one for each family -/

theorem test_reset_runs_init :
    seen (step (State.reset.withFetchWord 144 0x100000000000000000000000000000000000)) =
      some (false, 0, 0, false, [0x10000000000#44]) := by decide
theorem test_reset_runs_begin :
    seen (step (State.reset.withFetchWord 144 0x2000472C4400447A0000400000003F800000)) =
      some (false, 0, 0, true, [0x10000000000#44]) := rfl
theorem test_reset_runs_smp :
    seen (step (State.reset.withFetchWord 144 0x30000000000000000000000000003F800000)) =
      some (true, 2, 0, false, [0xF0000000002#44]) := by decide
theorem test_table_word : decodeTableWord 144 0x30010000000000000000000000003F800000 = some (.smp 1 0x3F800000#32) := by
  decide

/-! ## Witnesses: the state and control statements -/

/-- StepKeepsLegal, in a live state and in the fault state. -/
theorem witness_step_keeps_legal :
    (∃ t, (live 2 true [.command wSmp1]).Legal ∧ step (live 2 true [.command wSmp1]) = .next t) ∧
    ∃ t, (dead 4 [.command wInit2]).Legal ∧ step (dead 4 [.command wInit2]) = .next t :=
  ⟨⟨_, by decide, rfl⟩, _, by decide, rfl⟩

/-- LegalStepAnswers at the bounds: NCH 0 and NCH_MAX, codes 1 and 4, NCH_MAX 1 and 255. -/
theorem witness_legal :
    (live 0 false []).Legal ∧ (live 2 true []).Legal ∧ (dead 1 []).Legal ∧ (dead 4 []).Legal ∧
    State.Legal { live 1 true [] with hist := [zeroHistory] } := by decide
theorem witness_legal_largest : State.Legal { live 255 true [] with hist := List.replicate 255 zeroHistory } := by
  decide +kernel

/-- OneResponsePerCommand: a command that faults, an INIT and an SMP that do not. -/
theorem witness_one_response :
    ((live 0 false [.command 0#144]).Legal ∧ (live 0 false [.command 0#144]).cmdIn = .command 0#144 :: []) ∧
    ((live 0 false [.command wInit2]).Legal ∧ decode wInit2 = .ok (.init 2)) ∧
    (live 2 true [.command wSmp1]).Legal ∧ decode wSmp1 = .ok (.smp 1 0x3F800000#32) := by decide

theorem witness_responses_in_order :
    ∃ t, (live 0 false [.command wInit2, .command 0#144]).cmdIn = [wInit2, 0#144].map .command ∧
      runSteps [wInit2, 0#144].length (live 0 false [.command wInit2, .command 0#144]) = .next t := ⟨_, rfl, rfl⟩

/-- FaultStateAnswersErr, both clauses, with the lowest and the highest code. -/
theorem witness_fault_state :
    (dead 1 [.command 0#144]).fault = true ∧ (dead 1 [.command 0#144]).cmdIn = .command 0#144 :: [] ∧
    (dead 4 [.command wPeak]).fault = true ∧ (dead 4 [.command wPeak]).cmdIn = .command wPeak :: [] := by decide

/-- FaultLeftOnlyByReset, on a command and with no input. -/
theorem witness_fault_left :
    (∃ t, (dead 2 [.command wInit2]).fault = true ∧ (∀ rest, (dead 2 [.command wInit2]).cmdIn ≠ .hwReset :: rest) ∧
      step (dead 2 [.command wInit2]) = .next t) ∧
    ∃ t, (dead 2 []).fault = true ∧ (∀ rest, (dead 2 []).cmdIn ≠ .hwReset :: rest) ∧ step (dead 2 []) = .next t :=
  ⟨⟨_, rfl, by simp [dead, live], rfl⟩, _, rfl, by simp [dead, live], rfl⟩

/-- RaisedFaultWritesNothingElse, with code 1 and with code 4. -/
theorem witness_raised_fault :
    (∃ t, (live 0 false [.command 0#144]).fault = false ∧ step (live 0 false [.command 0#144]) = .next t ∧
      t.fault = true ∧ t.fcode = 1) ∧
    ∃ t, (live 0 false [.command 0x100300000000000000000000000000000000#144]).fault = false ∧
      step (live 0 false [.command 0x100300000000000000000000000000000000#144]) = .next t ∧ t.fault = true ∧ t.fcode = 4 :=
  ⟨⟨_, rfl, rfl, rfl, rfl⟩, _, rfl, rfl, rfl, rfl⟩

theorem witness_illegal_word :
    (live 0 false [.command 0#144]).fault = false ∧ (live 0 false [.command 0#144]).cmdIn = .command 0#144 :: [] ∧
    (∀ r ∈ opcodeTable, 0#144 &&& r.mask ≠ r.pattern) ∧
    ∀ r ∈ opcodeTable, BitVec.allOnes 144 &&& r.mask ≠ r.pattern := by
  refine ⟨rfl, rfl, ?_, ?_⟩ <;> simp [opcodeTable, rowInit, rowBeginPeak, rowBeginHp, rowBeginLp, rowBeginLs, rowBeginHs, rowSmp]

/-- InitBeyondStorageFaults and InitEstablishesChannels on either side of the bound, and INIT 0. -/
theorem witness_init :
    (live 1 true []).fault = false ∧ 3 > nchMax (live 1 true []) ∧ 2 ≤ nchMax (live 1 true []) ∧
    0 ≤ nchMax (live 1 true []) := by decide

/-- SmpOutOfRangeFaults, SmpWithoutCoefficientsFaults and SmpFiltersSample where they meet. -/
theorem witness_smp :
    ((live 2 true []).fault = false ∧ 2 ≥ (live 2 true []).nch) ∧
    ((live 0 false []).fault = false ∧ 0 ≥ (live 0 false []).nch) ∧
    ((live 2 false []).fault = false ∧ 1 < (live 2 false []).nch ∧ (live 2 false []).cv = false) ∧
    (live 2 true []).fault = false ∧ 1 < (live 2 true []).nch ∧ (live 2 true []).nch ≤ nchMax (live 2 true []) ∧
      (live 2 true []).cv = true := by decide

/-- FaultChecksInOrder, one state for each branch of its code. -/
theorem witness_fault_order :
    ((dead 3 [.command 0#144]).Legal ∧ (dead 3 [.command 0#144]).fault = true) ∧
    ((live 0 false [.command 0#144]).Legal ∧ decode 0#144 = .error .opcodeReserved) ∧
    ((live 0 false [.command wInit2]).Legal ∧ decode wInit2 = .ok (.init 2) ∧ ¬2 > nchMax (live 0 false [])) ∧
    ((live 1 true [.command wSmp1]).Legal ∧ decode wSmp1 = .ok (.smp 1 0x3F800000#32) ∧ 1 ≥ (live 1 true []).nch) ∧
    (live 2 false [.command wSmp1]).Legal ∧ ¬1 ≥ (live 2 false []).nch ∧ (live 2 false []).cv = false := by decide

/-- The five BeginLoadsDesign statements. -/
theorem witness_begin : (live 0 false []).fault = false := rfl

theorem witness_step_runs_decoded :
    (live 0 false [.command wPeak]).cmdIn = .command wPeak :: [] ∧
    decode wPeak = .ok (.beginPeak 0x472C4400#32 0x447A0000#32 0x40000000#32 0x3F800000#32) := by decide

theorem witness_idle : (live 2 true []).cmdIn = [] := rfl

theorem witness_hardware_reset : (dead 4 [.hwReset, .command wInit2]).cmdIn = .hwReset :: [.command wInit2] := rfl

theorem witness_placed : decodeTableWord 144 0x300100000000000000000000000000000000 = some (.smp 1 0#32) := by decide

/-- InitFrame, in a live state, with a fault, and in the fault state. -/
theorem witness_init_frame :
    (∃ t, exec (.init 2) (live 0 true []) = .next t ∧ t.fault = false) ∧
    (∃ t, exec (.init 3) (live 0 true []) = .next t ∧ t.fault = true) ∧
    ∃ t, exec (.init 2) (dead 2 []) = .next t := ⟨⟨_, rfl, rfl⟩, ⟨_, rfl, rfl⟩, _, rfl⟩

theorem witness_begin_frame :
    (∃ t, exec (.beginHp 0#32 0#32 0#32 0#32) (live 0 false []) = .next t) ∧
    ∃ t, exec (.beginHs 0#32 0#32 0#32 0#32) (dead 2 []) = .next t := ⟨⟨_, rfl⟩, _, rfl⟩

/-- SmpFrame: filtered, out of range, and in the fault state. -/
theorem witness_smp_frame :
    (∃ t, exec (.smp 1 0#32) (live 2 true []) = .next t ∧ 1 < (live 2 true []).nch ∧ (live 2 true []).cv = true) ∧
    (∃ t, exec (.smp 2 0#32) (live 2 true []) = .next t ∧ t.fault = true) ∧
    ∃ t, exec (.smp 1 0#32) (dead 2 []) = .next t := ⟨⟨_, rfl, by decide⟩, ⟨_, rfl, rfl⟩, _, rfl⟩

/-- CoefWrittenOnlyByBegin, by a BEGIN and by hardware reset. -/
theorem witness_coef_written :
    (∃ t, step (live 0 false [.command wPeak]) = .next t ∧ t.cv ≠ (live 0 false [.command wPeak]).cv) ∧
    ∃ t, step (live 0 true [.hwReset]) = .next t ∧ t.cv ≠ (live 0 true [.hwReset]).cv :=
  ⟨⟨_, rfl, by decide⟩, _, rfl, by decide⟩

/-- HistoryWrittenOnlyByInitAndSmp, by an SMP of channel 1 and by an INIT. -/
theorem witness_history_written :
    (∃ t, step (live 2 true [.command wSmp1]) = .next t ∧ cellX t 1 0 ≠ cellX (live 2 true [.command wSmp1]) 1 0) ∧
    ∃ t, step { live 2 true [.command wInit2] with hist := [played, played] } = .next t ∧
      cellY t 0 2 ≠ cellY { live 2 true [.command wInit2] with hist := [played, played] } 0 2 :=
  ⟨⟨_, rfl, by decide⟩, _, rfl, by decide⟩

theorem witness_nch_written :
    ∃ t, step (live 0 true [.command wInit2]) = .next t ∧ t.nch ≠ (live 0 true [.command wInit2]).nch :=
  ⟨_, rfl, by decide⟩

/-- UnspecifiedCellsUnobservable, first clause: another history of the right length. -/
theorem witness_unspecified_reset :
    (List.replicate (nchMax State.reset) played).length = nchMax State.reset := List.length_replicate

/-- The same, second clause: two states that differ in a dead cell and in an unestablished channel. -/
theorem witness_unspecified :
    let s := { live 1 true [.command 0x30000000000000000000000000003F800000#144] with hist := [played, zeroHistory] }
    let s' := { s with hist := [{ played with x := { played.x with d2 := 0#32 } }, played] }
    s ≠ s' ∧ s.SameObservable s' ∧ ∃ t, runSteps 1 s = .next t := by
  refine ⟨by decide, ⟨rfl, rfl, rfl, rfl, rfl, rfl, rfl, fun _ => rfl, ?_⟩, _, rfl⟩
  intro c hc g h hg hh
  obtain rfl : c = 0 := by simpa [live] using hc
  cases hg
  cases hh
  decide

theorem witness_channels_commute :
    (0 : Nat) ≠ 1 ∧ 0 < (live 2 true []).nch ∧ 1 < (live 2 true []).nch ∧ (live 2 true []).nch ≤ nchMax (live 2 true []) ∧
    (live 2 true []).cv = true ∧ (live 2 true []).fault = false := by decide

theorem witness_equal_begin_words :
    decode wPeak = .ok (beginInstr .peak 0x472C4400#32 0x447A0000#32 0x40000000#32 0x3F800000#32) ∧
    ∃ t t', (live 0 false [.command wPeak]).fault = false ∧ (live 2 true [.command wPeak]).fault = false ∧
      step (live 0 false [.command wPeak]) = .next t ∧ step (live 2 true [.command wPeak]) = .next t' :=
  ⟨by decide, _, _, rfl, rfl, rfl, rfl⟩

/-- BlockSplittingChangesNothing and ProcessOrdersAgree (n = NCH). -/
theorem witness_process : (live 2 true []).Legal ∧ (live 2 true []).fault = false ∧ 2 ≤ (live 2 true []).nch := by decide

theorem witness_decode_of_encode :
    Instr.WellFormed (.init 255) ∧ Instr.WellFormed (.beginLs 0#32 0#32 0#32 0#32) ∧ Instr.WellFormed (.smp 255 0#32) := by
  decide

theorem witness_encode_of_decode : decode wSmp1 = .ok (.smp 1 0x3F800000#32) := by decide

/-- IllegalWordsAreThese, last clause. -/
theorem witness_illegal_step :
    (live 0 false [.command 0#144]).fault = false ∧ (live 0 false [.command 0#144]).cmdIn = .command 0#144 :: [] ∧
    decode 0#144 = .error .opcodeReserved := by decide

/-! ## Witnesses: the numerics -/

/-- Values by the table of 40_numerics R66: a zero, the smallest subnormal, 1.0. -/
theorem test_value_zero : realValue 0x80000000#32 = 0 := by
  rw [realValue_eq, show magUnits 0x80000000#32 = 0 by decide]
  simp
theorem test_value_subnormal : realValue 0x00000001#32 = (2 : ℝ) ^ (-149 : ℤ) := by
  rw [realValue_eq, show magUnits 0x00000001#32 = 1 by decide, show signBit 0x00000001#32 = false by decide]
  simp
theorem test_value_one : realValue 0x3F800000#32 = 1 := by
  unfold realValue
  rw [show signBit 0x3F800000#32 = false by decide, show expField 0x3F800000#32 = 127 by decide,
    show fracField 0x3F800000#32 = 0 by decide]
  norm_num

/-- RoundingIsNearestEven: a tie to zero, and the first value that is an infinity. -/
theorem witness_rounding : 0 < 1 ∧ 0 < 2 ∧ 0 < (2 ^ 25 - 1) * 2 ^ 252 := by decide
theorem test_round_tie : roundUnits true 1 2 = 0x80000000#32 := by decide
theorem test_round_overflow :
    roundUnits false ((2 ^ 25 - 1) * 2 ^ 252) 1 = 0x7F800000#32 ∧
    roundUnits false ((2 ^ 25 - 1) * 2 ^ 252 - 1) 1 = 0x7F7FFFFF#32 := by decide +kernel

/-- AddAndSubtractRounded, clause by clause. -/
theorem witness_add :
    isNaN 0x7FC00000#32 = true ∧
    (isInf 0x7F800000#32 = true ∧ isInf 0xFF800000#32 = true ∧ signBit 0x7F800000#32 ≠ signBit 0xFF800000#32) ∧
    (isInf 0x7F800000#32 = true ∧ isFinite 0x3F800000#32 = true) ∧
    isNaN 0x3F800000#32 = false := by decide
theorem witness_add_finite :
    isFinite 0x00000001#32 = true ∧ isFinite 0x80000000#32 = true ∧
    realValue 0x00000001#32 + realValue 0x80000000#32 ≠ 0 ∧ realValue 0x80000000#32 + realValue 0x80000000#32 = 0 := by
  refine ⟨by decide, by decide, ?_, ?_⟩
  · rw [test_value_zero, test_value_subnormal]
    positivity
  · rw [test_value_zero, add_zero]

/-- MultiplyAndDivideRounded, clause by clause. -/
theorem witness_mul_div :
    (isZero 0x80000000#32 = true ∧ isInf 0x7F800000#32 = true) ∧
    (isInf 0xFF800000#32 = true ∧ isFinite 0x3F800000#32 = true ∧ isZero 0x3F800000#32 = false) ∧
    (isZero 0x80000000#32 = true ∧ isFinite 0x3F800000#32 = true) ∧
    (isFinite 0x00000001#32 = true ∧ isZero 0x00000001#32 = false) ∧
    (isZero 0#32 = true ∧ isFinite 0#32 = true) := by decide

/-- SqrtRoundedAndNegExact, clause by clause. -/
theorem witness_sqrt :
    isNaN 0xFF800001#32 = true ∧ (signBit 0x80000001#32 = true ∧ isZero 0x80000001#32 = false) ∧
    isZero 0x80000000#32 = true ∧ (isInf 0x7F800000#32 = true ∧ signBit 0x7F800000#32 = false) ∧
    (isFinite 0x00000001#32 = true ∧ signBit 0x00000001#32 = false ∧ isZero 0x00000001#32 = false) := by decide

/-- ExactOperations, clause by clause: 2^-125 itself, and a subnormal whose half is not exact. -/
theorem witness_exact :
    isFinite 0x01000000#32 = true ∧ (2 : ℝ) ^ (-125 : ℤ) ≤ |realValue 0x01000000#32| ∧ nonnegF 0x80000000#32 = true ∧
    isInf 0xFF800000#32 = true := by
  refine ⟨by decide, ?_, by decide, by decide⟩
  unfold realValue
  rw [show signBit 0x01000000#32 = false by decide, show expField 0x01000000#32 = 2 by decide,
    show fracField 0x01000000#32 = 0 by decide]
  have : (2 : ℝ) ^ 23 * (2 : ℝ) ^ (-148 : ℤ) = (2 : ℝ) ^ (-125 : ℤ) := by
    rw [← zpow_natCast (2 : ℝ) 23, ← zpow_add₀ (by norm_num)]
    norm_num
  rw [if_neg (by decide), if_neg (by decide), one_mul, Nat.cast_zero, add_zero,
    show ((2 : ℕ) : ℤ) - 150 = -148 by norm_num, this]
  exact le_abs_self _
theorem witness_exact_subnormal :
    isFinite 0x00000001#32 = true ∧ isZero 0x00000001#32 = false ∧
    realValue ((binary32 default).fdiv 0x00000001#32 0x40000000#32) ≠ realValue 0x00000001#32 / 2 := by
  refine ⟨by decide, by decide, ?_⟩
  rw [show (binary32 default).fdiv 0x00000001#32 0x40000000#32 = 0#32 by decide +kernel, test_value_subnormal,
    realValue_eq, show magUnits 0#32 = 0 by decide, Nat.cast_zero, mul_zero, zero_mul]
  positivity

/-- TrigProperties: a non-finite angle, and the largest angle of T4. -/
theorem witness_trig :
    isFinite 0x7F800000#32 = false ∧ isFinite 0x40490FDA#32 = true ∧ 0 ≤ realValue 0x40490FDA#32 ∧
    realValue 0x40490FDA#32 ≤ realValue 0x40490FDA#32 := by
  refine ⟨by decide, by decide, ?_, le_refl _⟩
  rw [realValue_eq, show signBit 0x40490FDA#32 = false by decide, if_neg (by decide)]
  positivity

/-- SineAndCosineAccurate at the largest angle, 8. -/
theorem witness_accuracy : isFinite 0x41000000#32 = true ∧ |realValue 0x41000000#32| ≤ 8 := by
  refine ⟨by decide, ?_⟩
  unfold realValue
  rw [show signBit 0x41000000#32 = false by decide, show expField 0x41000000#32 = 130 by decide,
    show fracField 0x41000000#32 = 0 by decide]
  norm_num [abs_le]

theorem witness_nan : isNaN 0x7F800001#32 = true ∧ isNaN 0x3F800000#32 = false := by decide

/-- UnityGainPeakBitEqual and UnityGainShelvesValueEqual at zero frequency, where the angle and alpha are +0. -/
theorem witness_unity_gain :
    isNaN (sharedTerms (binary32 default) 0x472C4400#32 0#32 0x3F800000#32).alpha = false ∧
    isFinite (designW0 (binary32 default) 0x472C4400#32 0#32) = true ∧
    nonnegF (sharedTerms (binary32 default) 0x472C4400#32 0#32 0x3F800000#32).alpha = true := by decide +kernel

/-- PassAndPeakA0AtLeastOne, with the smallest q and gain. -/
theorem witness_pass_peak :
    nonnegF ((binary32 default).fsin (designW0 (binary32 default) 0x472C4400#32 0#32)) = true ∧
    positiveF 0x00000001#32 = true ∧ isFinite 0x00000001#32 = true := by decide +kernel

theorem witness_silence :
    isNaN passCoef.a0 = false ∧ isZero passCoef.a0 = false ∧ isFinite passCoef.a1 = true ∧ isFinite passCoef.a2 = true ∧
    isFinite passCoef.b0 = true ∧ isFinite passCoef.b1 = true ∧ isFinite passCoef.b2 = true ∧
    signBit passCoef.a0 = false ∧ signBit passCoef.b0 = false := by decide

/-- DegenerateNumericsComputed, clause by clause. -/
theorem witness_degenerate :
    let N := binary32 default
    let acc := fun (k : Coef) (x : F) => accumulate N k (shiftIn zeroHistory.x x) zeroHistory.y.d0 zeroHistory.y.d1
    (isZero { passCoef with a0 := 0x80000000#32 }.a0 = true ∧
      isNaN (acc { passCoef with a0 := 0x80000000#32 } 0x3F800000#32) = false ∧
      isZero (acc { passCoef with a0 := 0x80000000#32 } 0x3F800000#32) = false) ∧
    isZero (acc { passCoef with a0 := 0x80000000#32 } 0#32) = true ∧
    (isInf { passCoef with a0 := 0x7F800000#32 }.a0 = true ∧
      isFinite (acc { passCoef with a0 := 0x7F800000#32 } 0x3F800000#32) = true ∧
      isInf (acc { passCoef with a0 := 0x7F800000#32 } 0x7F800000#32) = true) ∧
    isNaN { passCoef with b1 := 0x7FC00000#32 }.b1 = true := by decide +kernel

end Sys2Proof.Tests
end

section
/-! PROOF. The family of 10_state: what reset leaves, the legal states, which commands write which part of the state, and
what can be observed of it (10_state R10 to R23). -/

namespace Sys2Proof.Machine

/-! ## The history store under each update -/

@[simp] theorem channel_respond (c : Nat) (r : Response) (s : State) : channel c (respond r s) = channel c s := rfl
@[simp] theorem channel_setInputs (c : Nat) (inputs : List HostInput) (s : State) :
    channel c (setInputs inputs s) = channel c s := rfl
@[simp] theorem channel_setFault (c : Nat) (f : Cause) (s : State) : channel c (setFault f s) = channel c s := rfl
@[simp] theorem channel_setCoef (c : Nat) (k : Coef) (s : State) : channel c (setCoef k s) = channel c s := rfl
@[simp] theorem channel_setNch (c n : Nat) (s : State) : channel c (setNch n s) = channel c s := rfl

/-- A slot that answers is below NCH_MAX. -/
theorem lt_nchMax_of_channel {c : Nat} {s : State} {g : ChannelHistory} (h : channel c s = some g) : c < nchMax s :=
  channel_isSome.1 (by rw [h]; rfl)

/-- A slot read after the zero fill is the zero history (41_config_ops R85). -/
theorem eq_zeroHistory_of_channel {c : Nat} {s : State} {g : ChannelHistory}
    (h : channel c (zeroAllHistory s) = some g) : g = zeroHistory := by
  have hc : c < nchMax s := by simpa using lt_nchMax_of_channel h
  rw [channel_zeroAllHistory hc] at h
  exact (Option.some.inj h).symm

/-- A slot read after a write is the one written or an untouched one (20_memory R34). -/
theorem channel_setChannel_some {c c' : Nat} {s : State} {g g' : ChannelHistory}
    (h : channel c' (setChannel c g s) = some g') : (c' = c ∧ g' = g) ∨ (c' ≠ c ∧ channel c' s = some g') := by
  by_cases hc : c' = c
  · subst hc
    have hlt : c' < nchMax s := by simpa using lt_nchMax_of_channel h
    rw [channel_setChannel_self g hlt] at h
    exact .inl ⟨rfl, (Option.some.inj h).symm⟩
  · rw [channel_setChannel_other g s hc] at h
    exact .inr ⟨hc, h⟩

/-- Each of the three cells of a zeroed array is +0 (41_config_ops R85). -/
theorem delayCell_zeroDelay {k : Nat} (hk : k < 3) : delayCell zeroDelay k = some 0x00000000#32 := by
  match k, hk with
  | 0, _ | 1, _ | 2, _ => rfl

theorem cellX_zeroAllHistory {c k : Nat} {s : State} (hc : c < nchMax s) (hk : k < 3) :
    cellX (zeroAllHistory s) c k = some 0x00000000#32 := by
  rw [cellX, channel_zeroAllHistory hc]
  exact delayCell_zeroDelay hk

theorem cellY_zeroAllHistory {c k : Nat} {s : State} (hc : c < nchMax s) (hk : k < 3) :
    cellY (zeroAllHistory s) c k = some 0x00000000#32 := by
  rw [cellY, channel_zeroAllHistory hc]
  exact delayCell_zeroDelay hk

/-! ## The legal states (10_state R10, R14, R15) -/

/-- Every code of the list of causes is 1 .. 4 (60_exceptions R127). -/
theorem causeCode_range (f : Cause) : 1 ≤ (causeCode f).toNat ∧ (causeCode f).toNat ≤ 4 := by
  cases f <;> decide

theorem legal_setInputs {s : State} (inputs : List HostInput) (h : s.Legal) : (setInputs inputs s).Legal := h

theorem legal_respond {s : State} (r : Response) (h : s.Legal) : (respond r s).Legal := h

theorem legal_setCoef {s : State} (k : Coef) (h : s.Legal) : (setCoef k s).Legal := h

theorem legal_setFault {s : State} (f : Cause) (h : s.Legal) : (setFault f s).Legal := by
  obtain ⟨hpos, hmax, hnch, -, -⟩ := h
  exact ⟨hpos, hmax, hnch, nofun, fun _ => causeCode_range f⟩

theorem legal_setNch {s : State} {n : Nat} (hn : n ≤ nchMax s) (h : s.Legal) : (setNch n s).Legal := by
  obtain ⟨hpos, hmax, -, hlive, hfaulted⟩ := h
  exact ⟨hpos, hmax, hn, hlive, hfaulted⟩

/-- Legality sees of the history its number of slots only. -/
theorem legal_of_nchMax_eq {s t : State} (hmax : nchMax t = nchMax s) (hnch : t.nch = s.nch) (hf : t.fault = s.fault)
    (hc : t.fcode = s.fcode) (h : s.Legal) : t.Legal := by
  unfold State.Legal
  rw [hmax, hnch, hf, hc]
  exact h

theorem legal_zeroAllHistory {s : State} (h : s.Legal) : (zeroAllHistory s).Legal :=
  legal_of_nchMax_eq (s := s) (by simp) rfl rfl rfl h

theorem legal_setChannel {s : State} (c : Nat) (g : ChannelHistory) (h : s.Legal) : (setChannel c g s).Legal :=
  legal_of_nchMax_eq (s := s) (by simp) rfl rfl rfl h

theorem legal_hardwareReset {s : State} (h : s.Legal) : (hardwareReset s).Legal := by
  obtain ⟨hpos, hmax, -, -, -⟩ := h
  exact ⟨by simpa using hpos, by simpa using hmax, Nat.zero_le _, fun _ => rfl, nofun⟩

/-- An instruction keeps the legal states. -/
theorem Answers.legal {s t : State} {i : Instr} (ha : Answers s i t) (h : s.Legal) : t.Legal := by
  cases ha with
  | faulted => exact legal_respond _ h
  | tooMany | outOfRange | noCoef => exact legal_respond _ (legal_setFault _ h)
  | established n _ hn =>
    have hn' : n ≤ nchMax (zeroAllHistory s) := by simpa using countFits_true.1 hn
    exact legal_respond _ (legal_setNch hn' (legal_zeroAllHistory h))
  | designed => exact legal_respond _ (legal_setCoef _ h)
  | filtered => exact legal_respond _ (legal_setChannel _ _ h)

/-- No instruction changes the number of history slots. -/
theorem Answers.nchMax_eq {s t : State} {i : Instr} (ha : Answers s i t) : nchMax t = nchMax s := by
  cases ha <;> simp

theorem Steps.legal {s t : State} (hs : Steps s t) (h : s.Legal) : t.Legal := by
  cases hs with
  | idle => exact h
  | reset rest => exact legal_hardwareReset (legal_setInputs rest h)
  | faulted w rest => exact legal_respond _ (legal_setInputs rest h)
  | illegal w e rest => exact legal_respond _ (legal_setFault _ (legal_setInputs rest h))
  | executed w i rest t _ _ _ ha => exact ha.legal (legal_setInputs rest h)

theorem Steps.nchMax_eq {s t : State} (hs : Steps s t) : nchMax t = nchMax s := by
  cases hs with
  | idle => rfl
  | reset | faulted | illegal => simp
  | executed w i rest t _ _ _ ha => simpa using ha.nchMax_eq

/-- Settles O3: each way a step can answer keeps the invariant and the number of slots. -/
theorem stepKeepsLegal : Obligations.StepKeepsLegal := by
  intro s t hl h
  have hs := steps_of_step h
  exact ⟨hs.legal hl, hs.nchMax_eq⟩

/-! ## What can be observed (10_state R21, R23) -/

theorem sameObservable_setInputs {s t : State} (inputs : List HostInput) (h : s.SameObservable t) :
    (setInputs inputs s).SameObservable (setInputs inputs t) := by
  obtain ⟨hcv, hnch, hfault, hfcode, hmax, -, hout, hcoef, hlive⟩ := h
  exact ⟨hcv, hnch, hfault, hfcode, hmax, rfl, hout, hcoef, hlive⟩

theorem sameObservable_respond {s t : State} (r : Response) (h : s.SameObservable t) :
    (respond r s).SameObservable (respond r t) := by
  obtain ⟨hcv, hnch, hfault, hfcode, hmax, hin, hout, hcoef, hlive⟩ := h
  exact ⟨hcv, hnch, hfault, hfcode, hmax, hin, by simp [hout], hcoef, hlive⟩

theorem sameObservable_setFault {s t : State} (f : Cause) (h : s.SameObservable t) :
    (setFault f s).SameObservable (setFault f t) := by
  obtain ⟨hcv, hnch, -, -, hmax, hin, hout, hcoef, hlive⟩ := h
  exact ⟨hcv, hnch, rfl, rfl, hmax, hin, hout, hcoef, hlive⟩

theorem sameObservable_setCoef {s t : State} (k : Coef) (h : s.SameObservable t) :
    (setCoef k s).SameObservable (setCoef k t) := by
  obtain ⟨-, hnch, hfault, hfcode, hmax, hin, hout, -, hlive⟩ := h
  exact ⟨rfl, hnch, hfault, hfcode, hmax, hin, hout, fun _ => rfl, hlive⟩

/-- What INIT writes hides every difference of the history: all slots are zeroed before the new channels count. -/
theorem sameObservable_establish {s t : State} (n : Nat) (h : s.SameObservable t) :
    (setNch n (zeroAllHistory s)).SameObservable (setNch n (zeroAllHistory t)) := by
  obtain ⟨hcv, -, hfault, hfcode, hmax, hin, hout, hcoef, -⟩ := h
  refine ⟨hcv, rfl, hfault, hfcode, by simpa using hmax, hin, hout, hcoef, fun c _ g g' hg hg' => ?_⟩
  rw [eq_zeroHistory_of_channel hg, eq_zeroHistory_of_channel hg']
  exact ⟨⟨rfl, rfl⟩, rfl, rfl⟩

theorem sameObservable_setChannel {s t : State} (c : Nat) {g g' : ChannelHistory} (hg : g.SameLive g')
    (h : s.SameObservable t) : (setChannel c g s).SameObservable (setChannel c g' t) := by
  obtain ⟨hcv, hnch, hfault, hfcode, hmax, hin, hout, hcoef, hlive⟩ := h
  refine ⟨hcv, hnch, hfault, hfcode, by simpa using hmax, hin, hout, hcoef, fun d hd u v hu hv => ?_⟩
  rcases channel_setChannel_some hu with ⟨rfl, rfl⟩ | ⟨hne, hu⟩
  · rcases channel_setChannel_some hv with ⟨-, rfl⟩ | ⟨hne, -⟩
    · exact hg
    · exact absurd rfl hne
  · rw [channel_setChannel_other g' t hne] at hv
    exact hlive d hd u v hu hv

/-- Hardware reset hides every difference of COEF and the history: CV and NCH are 0 (10_state R21). -/
theorem sameObservable_hardwareReset {s t : State} (h : s.SameObservable t) :
    (hardwareReset s).SameObservable (hardwareReset t) := by
  obtain ⟨-, -, -, -, hmax, hin, -, -, -⟩ := h
  exact ⟨rfl, rfl, rfl, rfl, by simpa using hmax, hin, rfl, nofun,
    fun c hc => absurd hc (Nat.not_lt_zero c)⟩

/-- The recurrence reads the live cells only, and leaves as live cells what it read and computed (43_sample_ops R111). -/
theorem recurrence_sameLive (N : Num) (k : Coef) (x : F) {g g' : ChannelHistory} (h : g.SameLive g') :
    (recurrence N k g x).2 = (recurrence N k g' x).2 ∧ (recurrence N k g x).1.SameLive (recurrence N k g' x).1 := by
  obtain ⟨⟨hx0, hx1⟩, hy0, hy1⟩ := h
  have hout : (recurrence N k g x).2 = (recurrence N k g' x).2 := by
    simp [recurrence, shiftIn, accumulate, hx0, hx1, hy0, hy1]
  exact ⟨hout, ⟨rfl, hx0⟩, hout, hy0⟩

/-- An SMP that passes its checks reads of the state only what is observable. -/
theorem sameObservable_filtered {s s' : State} {c : Nat} {x : F} {g : ChannelHistory} (ho : s.SameObservable s')
    (hf : s.fault = false) (hc : channelInRange c s = true) (hv : s.cv = true) (hg : channel c s = some g) :
    ∃ t', exec (.smp c x) s' = .next t' ∧
      (respond (.data c (recurrence machineNum s.coef g x).2)
        (setChannel c (recurrence machineNum s.coef g x).1 s)).SameObservable t' := by
  have ⟨hcv, hnch, hfault, _, hmax, _, _, hcoef, hlive⟩ := ho
  obtain ⟨g', hg'⟩ := Option.isSome_iff_exists.1 (channel_isSome.2 (hmax ▸ lt_nchMax_of_channel hg))
  have hlt : c < s.nch := channelInRange_true.1 hc
  obtain ⟨hout, hsame⟩ := recurrence_sameLive machineNum s.coef x (hlive c hlt g g' hg hg')
  refine ⟨_, exec_smp_ok (hfault ▸ hf) (channelInRange_true.2 (hnch ▸ hlt)) (hcv ▸ hv) hg', ?_⟩
  rw [← hcoef hv, hout]
  exact sameObservable_respond _ (sameObservable_setChannel c hsame ho)

/-- An instruction's answer depends on what is observable only. -/
theorem Answers.sameObservable {s s' t : State} {i : Instr} (ha : Answers s i t) (ho : s.SameObservable s') :
    ∃ t', exec i s' = .next t' ∧ t.SameObservable t' := by
  have ⟨hcv, hnch, hfault, hfcode, hmax, _⟩ := ho
  cases ha with
  | faulted i hf =>
    refine ⟨_, exec_faulted i (hfault ▸ hf), ?_⟩
    rw [hfcode]
    exact sameObservable_respond _ ho
  | tooMany n hf hn =>
    have hn' : countFits n s' = false := countFits_false.2 (hmax ▸ countFits_false.1 hn)
    exact ⟨_, exec_init_tooMany (hfault ▸ hf) hn', sameObservable_respond _ (sameObservable_setFault _ ho)⟩
  | established n hf hn =>
    have hn' : countFits n s' = true := countFits_true.2 (hmax ▸ countFits_true.1 hn)
    exact ⟨_, exec_init_ok (hfault ▸ hf) hn', sameObservable_respond _ (sameObservable_establish n ho)⟩
  | designed i ft fs freq gain q hi hf =>
    have he := (exec_beginInstr ft fs freq gain q s').trans (beginWith_live ft fs freq gain q (hfault ▸ hf))
    exact ⟨_, hi ▸ he, sameObservable_respond _ (sameObservable_setCoef _ ho)⟩
  | outOfRange c x hf hc =>
    have hc' : channelInRange c s' = false := channelInRange_false.2 (hnch ▸ channelInRange_false.1 hc)
    exact ⟨_, exec_smp_outOfRange x (hfault ▸ hf) hc', sameObservable_respond _ (sameObservable_setFault _ ho)⟩
  | noCoef c x hf hc hv =>
    have hc' : channelInRange c s' = true := channelInRange_true.2 (hnch ▸ channelInRange_true.1 hc)
    exact ⟨_, exec_smp_noCoef x (hfault ▸ hf) hc' (hcv ▸ hv), sameObservable_respond _ (sameObservable_setFault _ ho)⟩
  | filtered c x g hf hc hv hg => exact sameObservable_filtered ho hf hc hv hg

/-- The step lemma of the relation: one step for one step. -/
theorem step_sameObservable {s s' t : State} (ho : s.SameObservable s') (h : step s = .next t) :
    ∃ t', step s' = .next t' ∧ t.SameObservable t' := by
  have ⟨_, _, hfault, hfcode, _, hin, _⟩ := ho
  cases steps_of_step h with
  | idle hc => exact ⟨s', step_idle (hin ▸ hc), ho⟩
  | reset rest hc =>
    exact ⟨_, step_hwReset (hin ▸ hc), sameObservable_hardwareReset (sameObservable_setInputs rest ho)⟩
  | faulted w rest hc hf =>
    have hf' : (setInputs rest s').fault = true := hfault ▸ hf
    refine ⟨_, (step_command (hin ▸ hc)).trans (acceptWord_faulted w hf'), ?_⟩
    rw [hfcode]
    exact sameObservable_respond _ (sameObservable_setInputs rest ho)
  | illegal w e rest hc hf hd =>
    have hf' : (setInputs rest s').fault = false := hfault ▸ hf
    exact ⟨_, (step_command (hin ▸ hc)).trans (acceptWord_illegal hf' hd),
      sameObservable_respond _ (sameObservable_setFault _ (sameObservable_setInputs rest ho))⟩
  | executed w i rest t hc hf hd ha =>
    obtain ⟨t', he, ht⟩ := ha.sameObservable (sameObservable_setInputs rest ho)
    exact ⟨t', ((step_command (hin ▸ hc)).trans (acceptWord_ok hd)).trans he, ht⟩

theorem runSteps_succ_of_step {s u : State} (k : Nat) (h : step s = .next u) : runSteps (k + 1) s = runSteps k u := by
  rw [runSteps, h]

/-- A run of k + 1 steps that answers is a step and a run of k steps. -/
theorem runSteps_succ_next {s t : State} {k : Nat} (h : runSteps (k + 1) s = .next t) :
    ∃ u, step s = .next u ∧ runSteps k u = .next t := by
  cases hs : step s with
  | next u => exact ⟨u, rfl, runSteps_succ_of_step k hs ▸ h⟩
  | fault r => rw [runSteps, hs] at h; cases h
  | refused r => rw [runSteps, hs] at h; cases h

theorem runSteps_sameObservable (k : Nat) {s s' t : State} (ho : s.SameObservable s') (h : runSteps k s = .next t) :
    ∃ t', runSteps k s' = .next t' ∧ t.SameObservable t' := by
  induction k generalizing s s' with
  | zero => cases h; exact ⟨s', rfl, ho⟩
  | succ k ih =>
    obtain ⟨u, hu, hrun⟩ := runSteps_succ_next h
    obtain ⟨u', hu', huo⟩ := step_sameObservable ho hu
    rw [runSteps_succ_of_step k hu']
    exact ih huo hrun

/-- Settles O32, by induction on the number of steps; at reset CV and NCH are 0, so COEF and the history do not count. -/
theorem unspecifiedCellsUnobservable : Obligations.UnspecifiedCellsUnobservable := by
  refine ⟨fun inputs coef hist hlen => ?_, fun k s s' t ho h => runSteps_sameObservable k ho h⟩
  exact ⟨rfl, rfl, rfl, rfl, hlen.symm, rfl, rfl, nofun, fun c hc => absurd hc (Nat.not_lt_zero c)⟩

/-! ## Which inputs write which part of the state (10_state R12 to R15, R17) -/

/-- Settles O8: with FAULT = 1 a step that is no reset idles or answers ERR. -/
theorem faultLeftOnlyByReset : Obligations.FaultLeftOnlyByReset := by
  intro s t hf hr h
  cases steps_of_step h with
  | idle => exact ⟨hf, rfl, rfl, rfl, rfl, rfl⟩
  | reset rest hc => exact absurd hc (hr rest)
  | faulted => exact ⟨hf, rfl, rfl, rfl, rfl, rfl⟩
  | illegal _ _ _ _ hlive | executed _ _ _ _ _ hlive => exact absurd (hf.symm.trans hlive) nofun

/-- Settles O15: the state answered is the one zeroed and counted. -/
theorem initEstablishesChannels : Obligations.InitEstablishesChannels := by
  intro n s hf hn
  refine ⟨_, exec_init_ok hf (countFits_true.2 hn), by simp, fun c k hc hk => ?_, rfl, rfl, rfl, hf, rfl, rfl, rfl, ?_⟩
  · exact ⟨cellX_zeroAllHistory hc hk, cellY_zeroAllHistory hc hk⟩
  · have hack : rspWord .ack = 0x10000000000#44 := by decide
    simp [hack]

/-- A part of the state that taking an input, answering and raising a fault leave as it is: every register of 10_state R10
but FAULT and FCODE. -/
structure PortKeeps {α : Type} (f : State → α) : Prop where
  setInputs : ∀ inputs s, f (setInputs inputs s) = f s
  respond : ∀ r s, f (respond r s) = f s
  setFault : ∀ c s, f (setFault c s) = f s

/-- The three ways an instruction does its work; every other answer is an ERR. -/
inductive Works (s : State) : Instr → State → Prop where
  | established (n : Nat) : Works s (.init n) (respond .ack (setNch n (zeroAllHistory s)))
  | designed (ft : FilterType) (fs freq gain q : F) :
      Works s (beginInstr ft fs freq gain q) (respond .ack (setCoef (design machineNum ft fs freq gain q) s))
  | filtered (c : Nat) (x : F) (g : ChannelHistory) (hg : channel c s = some g) :
      Works s (.smp c x) (respond (.data c (recurrence machineNum s.coef g x).2)
        (setChannel c (recurrence machineNum s.coef g x).1 s))

/-- An instruction that does its work raises no fault (60_exceptions R126). -/
theorem Works.fault_eq {s t : State} {i : Instr} (h : Works s i t) : t.fault = s.fault := by
  cases h <;> rfl

theorem Answers.works_of_ne {α : Type} {f : State → α} (hk : PortKeeps f) {s t : State} {i : Instr} (ha : Answers s i t)
    (hne : f t ≠ f s) : Works s i t := by
  cases ha with
  | faulted => exact absurd (hk.respond _ _) hne
  | tooMany | outOfRange | noCoef => exact absurd ((hk.respond _ _).trans (hk.setFault _ _)) hne
  | established n => exact .established n
  | designed i ft fs freq gain q hi => exact hi ▸ .designed ft fs freq gain q
  | filtered c x g _ _ _ hg => exact .filtered c x g hg

/-- The step of s to t took the word of the instruction i with FAULT = 0, and i did its work. -/
structure Executed (s t : State) (w : CmdWord) (i : Instr) (rest : List HostInput) : Prop where
  taken : s.cmdIn = .command w :: rest
  decoded : decode w = .ok i
  live : s.fault = false
  works : Works (setInputs rest s) i t

theorem Executed.fault_after {s t : State} {w : CmdWord} {i : Instr} {rest : List HostInput}
    (h : Executed s t w i rest) : t.fault = false :=
  h.works.fault_eq.trans h.live

/-- Such a part of the state is written by a hardware reset or by an instruction that does its work, and by nothing else. -/
theorem written_by_reset_or_executed {α : Type} {f : State → α} (hk : PortKeeps f) {s t : State} (h : step s = .next t)
    (hne : f t ≠ f s) : (∃ rest, s.cmdIn = .hwReset :: rest) ∨ ∃ w i rest, Executed s t w i rest := by
  cases steps_of_step h with
  | idle => exact absurd rfl hne
  | reset rest hc => exact .inl ⟨rest, hc⟩
  | faulted => exact absurd ((hk.respond _ _).trans (hk.setInputs _ _)) hne
  | illegal => exact absurd (((hk.respond _ _).trans (hk.setFault _ _)).trans (hk.setInputs _ _)) hne
  | executed w i rest t hc hf hd ha =>
    exact .inr ⟨w, i, rest, hc, hd, hf, ha.works_of_ne hk (by rwa [hk.setInputs])⟩

/-- Settles O29: of the three ways an instruction does its work, BEGIN's alone writes COEF or CV, and sets CV. -/
theorem coefWrittenOnlyByBegin : Obligations.CoefWrittenOnlyByBegin := by
  intro s t h hne
  have hk : PortKeeps fun s => (s.coef, s.cv) := ⟨fun _ _ => rfl, fun _ _ => rfl, fun _ _ => rfl⟩
  have hpair : (t.coef, t.cv) ≠ (s.coef, s.cv) := mt Prod.mk.inj (not_and_or.2 hne)
  refine (written_by_reset_or_executed hk h hpair).imp_right ?_
  rintro ⟨w, i, rest, hc, hd, hf, hw⟩
  cases hw with
  | designed ft fs freq gain q => exact ⟨hf, rfl, w, ft, fs, freq, gain, q, rest, hc, hd⟩
  | established | filtered => exact absurd rfl hpair

/-- Settles O30: BEGIN writes no cell, and SMP none of another channel. -/
theorem historyWrittenOnlyByInitAndSmp : Obligations.HistoryWrittenOnlyByInitAndSmp := by
  intro s t c k h hne
  have hk : PortKeeps fun s => (cellX s c k, cellY s c k) := ⟨fun _ _ => rfl, fun _ _ => rfl, fun _ _ => rfl⟩
  have hpair : (cellX t c k, cellY t c k) ≠ (cellX s c k, cellY s c k) := mt Prod.mk.inj (not_and_or.2 hne)
  refine (written_by_reset_or_executed hk h hpair).imp_right ?_
  rintro ⟨w, i, rest, hx⟩
  refine ⟨hx.live, hx.fault_after, w, i, rest, hx.taken, hx.decoded, ?_⟩
  cases hx.works with
  | established n => exact .inl ⟨n, rfl⟩
  | designed => exact absurd rfl hpair
  | filtered c' x g =>
    by_cases hcc : c = c'
    · exact .inr ⟨x, hcc ▸ rfl⟩
    · exact absurd (by simp [cellX, cellY, channel_setChannel_other _ _ hcc]) hpair

/-- Settles O31: INIT alone writes NCH, and writes its own operand. -/
theorem nchWrittenOnlyByInit : Obligations.NchWrittenOnlyByInit := by
  intro s t h hne
  have hk : PortKeeps State.nch := ⟨fun _ _ => rfl, fun _ _ => rfl, fun _ _ => rfl⟩
  refine (written_by_reset_or_executed hk h hne).imp_right ?_
  rintro ⟨w, i, rest, hx⟩
  refine ⟨hx.live, hx.fault_after, w, rest, hx.taken, hx.decoded.trans ?_⟩
  cases hx.works with
  | established n => rfl
  | designed | filtered => exact absurd rfl hne

/-! ## The state after reset (10_state R21) -/

/-- The store is as long as the configuration's NCH_MAX (log entry 3). -/
theorem nchMax_reset : nchMax State.reset = Config.machine.nchMax := unspecifiedSlots_length _ _ _

/-- NCH_MAX is any integer 1 .. 255 (92 D15). -/
theorem nchMax_range (cfg : Config) : 1 ≤ cfg.nchMax ∧ cfg.nchMax ≤ 255 :=
  ⟨Nat.succ_pos _, cfg.nchMaxPred.isLt⟩

/-- Settles O1: each register by evaluation, the number of slots by the length of the fresh store. -/
theorem resetLeavesStatusZero : Obligations.ResetLeavesStatusZero :=
  ⟨rfl, rfl, rfl, rfl, rfl, rfl, nchMax_reset⟩

/-- Settles O2: the configuration bounds NCH_MAX, and reset clears the rest. -/
theorem resetStateLegal : Obligations.ResetStateLegal := by
  obtain ⟨hpos, hmax⟩ := nchMax_range Config.machine
  exact ⟨nchMax_reset ▸ hpos, nchMax_reset ▸ hmax, Nat.zero_le _, fun _ => rfl, nofun⟩

end Sys2Proof.Machine
end

section
/-! PROOF. The family of 20_memory: the order of the responses, SMPs on different channels, and the bound check of SMP
(20_memory R35 to R39). -/

namespace Sys2Proof.Machine

/-! ## The bound check of SMP (20_memory R35) -/

/-- What raising a fault leaves, in full (60_exceptions R126). -/
theorem raiseFault_eq {f : Cause} {r : RspWord} (s : State) (hr : rspWord (.err (causeCode f)) = r) :
    raiseFault f s = .next { s with fault := true, fcode := causeCode f, rspOut := s.rspOut ++ [r] } := by
  rw [← hr]
  rfl

/-- Settles O12: the bound is checked before CV, and the answer is that of CHAN_RANGE. -/
theorem smpOutOfRangeFaults : Obligations.SmpOutOfRangeFaults := by
  intro c x s hf hc
  have hword : rspWord (.err (causeCode .chanRange)) = 0xF0000000002#44 := by decide
  exact (exec_smp_outOfRange x hf (channelInRange_false.2 hc)).trans (raiseFault_eq s hword)

/-! ## The order of the responses (20_memory R38) -/

/-- An instruction takes no input of its own and appends one response. -/
theorem Answers.appends_response {s t : State} {i : Instr} (ha : Answers s i t) :
    t.cmdIn = s.cmdIn ∧ ∃ r, t.rspOut = s.rspOut ++ [rspWord r] := by
  cases ha <;> exact ⟨rfl, _, rfl⟩

/-- The step that takes a command takes that command only and appends one response (20_memory R38). -/
theorem step_command_appends_response {s t : State} {w : CmdWord} {rest : List HostInput}
    (hc : s.cmdIn = .command w :: rest) (h : step s = .next t) :
    t.cmdIn = rest ∧ ∃ r, t.rspOut = s.rspOut ++ [rspWord r] := by
  cases steps_of_step h with
  | idle hc' | reset _ hc' => cases hc.symm.trans hc'
  | faulted _ _ hc' | illegal _ _ _ hc' => cases hc.symm.trans hc'; exact ⟨rfl, _, rfl⟩
  | executed _ _ _ _ hc' _ _ ha => cases hc.symm.trans hc'; exact ha.appends_response

/-- Settles O6, by induction on the list of words: the first step answers the first word, and the run from there the rest. -/
theorem responsesInCommandOrder : Obligations.ResponsesInCommandOrder := by
  intro ws s t hin hrun
  induction ws generalizing s with
  | nil => cases hrun; exact ⟨[], rfl, by simp, nofun⟩
  | cons w ws ih =>
    obtain ⟨u, hstep, hrest⟩ := runSteps_succ_next hrun
    obtain ⟨hin', r, hr⟩ := step_command_appends_response hin hstep
    obtain ⟨rs, hlen, hout, hnth⟩ := ih u hin' hrest
    refine ⟨rspWord r :: rs, by simp [hlen], by simp [hout, hr], fun i hi => ?_⟩
    cases i with
    | zero => exact ⟨s, u, rfl, hin, hstep, by simp, by simp [hr]⟩
    | succ i =>
      obtain ⟨a, b, hrun', hleft, hstep', hbefore, hafter⟩ := hnth i (Nat.lt_of_succ_lt_succ hi)
      exact ⟨a, b, (runSteps_succ_of_step i hstep).trans hrun', hleft, hstep',
        by simp [hbefore, hr], by simp [hafter, hr]⟩

/-! ## SMPs on different channels (20_memory R39) -/

theorem execAll_cons_of_exec {i : Instr} {s t : State} (is : List Instr) (h : exec i s = .next t) :
    execAll (i :: is) s = execAll is t := by
  rw [execAll, h]

theorem setChannel_comm {c c' : Nat} (g g' : ChannelHistory) (s : State) (hne : c ≠ c') :
    setChannel c g (setChannel c' g' s) = setChannel c' g' (setChannel c g s) := by
  simp [setChannel, List.set_comm g' g hne.symm]

/-- The state after an SMP that passes its checks, where g is the history of its channel (43_sample_ops R110). -/
def afterSmp (c : Nat) (x : F) (g : ChannelHistory) (s : State) : State :=
  respond (.data c (recurrence machineNum s.coef g x).2) (setChannel c (recurrence machineNum s.coef g x).1 s)

@[simp] theorem quiet_afterSmp (c : Nat) (x : F) (g : ChannelHistory) (s : State) :
    (afterSmp c x g s).quiet = setChannel c (recurrence machineNum s.coef g x).1 s.quiet := rfl

@[simp] theorem afterSmp_coef (c : Nat) (x : F) (g : ChannelHistory) (s : State) : (afterSmp c x g s).coef = s.coef := rfl

@[simp] theorem afterSmp_rspOut (c : Nat) (x : F) (g : ChannelHistory) (s : State) :
    (afterSmp c x g s).rspOut = s.rspOut ++ [rspWord (.data c (recurrence machineNum s.coef g x).2)] := rfl

/-- The second SMP finds its channel's history as it was before the first. -/
theorem execAll_smp_pair {c c' : Nat} {s : State} {g g' : ChannelHistory} (x x' : F) (hne : c ≠ c') (hf : s.fault = false)
    (hv : s.cv = true) (hc : c < s.nch) (hc' : c' < s.nch) (hg : channel c s = some g) (hg' : channel c' s = some g') :
    execAll [.smp c x, .smp c' x'] s = .next (afterSmp c' x' g' (afterSmp c x g s)) := by
  have hg2 : channel c' (afterSmp c x g s) = some g' := (channel_setChannel_other _ s hne.symm).trans hg'
  have hfirst : exec (.smp c x) s = .next (afterSmp c x g s) := exec_smp_ok hf (channelInRange_true.2 hc) hv hg
  have hsecond : exec (.smp c' x') (afterSmp c x g s) = .next (afterSmp c' x' g' (afterSmp c x g s)) :=
    exec_smp_ok hf (channelInRange_true.2 hc') hv hg2
  rw [execAll_cons_of_exec _ hfirst, execAll_cons_of_exec _ hsecond, execAll]

/-- Settles O33: each SMP reads COEF and its own channel only, and writes its own channel only. -/
theorem smpChannelsCommute : Obligations.SmpChannelsCommute := by
  intro c1 c2 u v s hne h1 h2 hmax hv hf
  obtain ⟨g1, hg1⟩ := Option.isSome_iff_exists.1 (channel_isSome.2 (h1.trans_le hmax))
  obtain ⟨g2, hg2⟩ := Option.isSome_iff_exists.1 (channel_isSome.2 (h2.trans_le hmax))
  refine ⟨_, _, rspWord (.data c1 (recurrence machineNum s.coef g1 u).2),
    rspWord (.data c2 (recurrence machineNum s.coef g2 v).2), execAll_smp_pair u v hne hf hv h1 h2 hg1 hg2,
    execAll_smp_pair v u hne.symm hf hv h2 h1 hg2 hg1, ?_, by simp, by simp⟩
  simpa using setChannel_comm _ _ _ hne.symm

end Sys2Proof.Machine
end

section
/-! PROOF. The family of 30_encoding, the words: decoder and encoder are inverse to each other, the rows of the opcode table,
the illegal words, the response words (30_encoding R47 to R55). -/

namespace Sys2Proof

open Sys2Proof.Machine

/-! ## The rows of the opcode table (30_encoding R53) -/

/-- A word two rows select gives the two patterns the same bits under both masks. -/
theorem patterns_agree_of_both_match {w : CmdWord} {r r' : Row} (h : w &&& r.mask = r.pattern)
    (h' : w &&& r'.mask = r'.pattern) : r.pattern &&& r'.mask = r'.pattern &&& r.mask := by
  rw [← h, ← h', BitVec.and_assoc, BitVec.and_assoc, BitVec.and_comm r.mask]

/-- Any two rows ask for different bits under both their masks. -/
theorem patterns_disagree : opcodeTable.Pairwise fun r r' => r.pattern &&& r'.mask ≠ r'.pattern &&& r.mask := by
  decide

/-- Settles O40: any two rows fix some bit to different values. -/
theorem rowsNeverOverlap : Obligations.RowsNeverOverlap :=
  patterns_disagree.imp fun hne _ ⟨h, h'⟩ => hne (patterns_agree_of_both_match h h')

theorem Row.selects_iff {r : Row} {w : CmdWord} : r.selects w = true ↔ w &&& r.mask = r.pattern := beq_iff_eq

/-- At most one row selects a word. -/
theorem row_unique {w : CmdWord} {r r' : Row} (hr : r ∈ opcodeTable) (hr' : r' ∈ opcodeTable)
    (hs : r.selects w = true) (hs' : r'.selects w = true) : r = r' := by
  have hne : opcodeTable.Pairwise fun r r' => ¬(r.selects w = true ∧ r'.selects w = true) :=
    rowsNeverOverlap.imp fun h => by simpa [Row.selects_iff] using h w
  exact (hne.imp fun h hs hs' => absurd ⟨hs, hs'⟩ h).forall_of_forall_of_flip
    (R := fun r r' => r.selects w = true → r'.selects w = true → r = r') (fun _ _ _ _ => rfl)
    (hne.imp fun h hs hs' => absurd ⟨hs', hs⟩ h) hr hr' hs hs'

/-! ## The decoder, by the rows -/

/-- The row that selects a word decodes it. -/
theorem decode_of_selects {w : CmdWord} {r : Row} (hr : r ∈ opcodeTable) (hs : r.selects w = true) :
    decode w = .ok (r.build w) := by
  cases hfind : opcodeTable.find? fun r => r.selects w with
  | none => exact absurd hs (List.find?_eq_none.1 hfind r hr)
  | some r' =>
    have hs' : r'.selects w = true := List.find?_some (p := fun r : Row => r.selects w) hfind
    rw [decode, hfind, row_unique (List.mem_of_find?_eq_some hfind) hr hs' hs]

/-- A word that decodes is decoded by a row that selects it. -/
theorem exists_row_of_decode {w : CmdWord} {i : Instr} (h : decode w = .ok i) :
    ∃ r ∈ opcodeTable, r.selects w = true ∧ r.build w = i := by
  cases hfind : opcodeTable.find? fun r => r.selects w with
  | none => rw [decode, hfind] at h; cases h
  | some r =>
    rw [decode, hfind] at h
    have hs : r.selects w = true := List.find?_some (p := fun r : Row => r.selects w) hfind
    exact ⟨r, List.mem_of_find?_eq_some hfind, hs, Except.ok.inj h⟩

/-- The refused words are those no row selects (30_encoding R54). -/
theorem decode_error_iff {w : CmdWord} : (∃ e, decode w = .error e) ↔ ¬∃ r ∈ opcodeTable, r.selects w = true := by
  constructor
  · rintro ⟨e, he⟩ ⟨r, hr, hs⟩
    rw [decode_of_selects hr hs] at he
    cases he
  · intro hnone
    cases hd : decode w with
    | error e => exact ⟨e, rfl⟩
    | ok i =>
      obtain ⟨r, hr, hs, -⟩ := exists_row_of_decode hd
      exact absurd ⟨r, hr, hs⟩ hnone

/-! ## Decoder and encoder (30_encoding R47 to R53) -/

theorem rowOf_mem (i : Instr) : rowOf i ∈ opcodeTable := by
  cases i <;> simp [rowOf, opcodeTable]

/-- The laws of the instruction's own row, for every instruction. -/
theorem ownRow (i : Instr) : Laws.OwnRow.Statement i := by
  cases i with
  | init n => exact Laws.OwnRow.init n
  | beginPeak fs freq gain q => exact Laws.OwnRow.beginPeak fs freq gain q
  | beginHp fs freq gain q => exact Laws.OwnRow.beginHp fs freq gain q
  | beginLp fs freq gain q => exact Laws.OwnRow.beginLp fs freq gain q
  | beginLs fs freq gain q => exact Laws.OwnRow.beginLs fs freq gain q
  | beginHs fs freq gain q => exact Laws.OwnRow.beginHs fs freq gain q
  | smp c x => exact Laws.OwnRow.smp c x

/-- Settles O38: the word is selected by the instruction's own row, so by no other, and that row builds the instruction. -/
theorem decodeOfEncode : Obligations.DecodeOfEncode := by
  intro i hwf
  obtain ⟨hselects, hbuild⟩ := ownRow i
  rw [decode_of_selects (rowOf_mem i) hselects, hbuild hwf]

/-- A number read from the 8-bit field fits it. -/
theorem fitsCh_chField (w : CmdWord) : fitsCh (chField w).toNat := (chField w).isLt

/-- A word whose OP, FT and CH are those of a BEGIN is that BEGIN's word of the other four fields. -/
theorem encodeBegin_fields {w : CmdWord} (ft : FilterType)
    (h : opField w = 2 ∧ ftField w = filterTypeCode ft ∧ chField w = 0) :
    encodeBegin ft (fsField w) (freqField w) (gainField w) (qdField w) = w := by
  obtain ⟨hop, hft, hch⟩ := h
  rw [encodeBegin, ← hop, ← hft, ← hch, layout_fields]

theorem encode_init_fields {w : CmdWord} (h : rowInit.selects w = true) : encode (.init (chField w).toNat) = w := by
  obtain ⟨hop, hft, hfs, hfreq, hgain, hqd⟩ := (rowInit_selects w).1 h
  rw [encode, BitVec.ofNat_toNat, BitVec.setWidth_eq]
  calc layout 1 0 (chField w) 0 0 0 0
      = layout (opField w) (ftField w) (chField w) (fsField w) (freqField w) (gainField w) (qdField w) := by
        rw [hop, hft, hfs, hfreq, hgain, hqd]
    _ = w := layout_fields w

theorem encode_smp_fields {w : CmdWord} (h : rowSmp.selects w = true) :
    encode (.smp (chField w).toNat (qdField w)) = w := by
  obtain ⟨hop, hft, hfs, hfreq, hgain⟩ := (rowSmp_selects w).1 h
  rw [encode, BitVec.ofNat_toNat, BitVec.setWidth_eq]
  calc layout 3 0 (chField w) 0 0 0 (qdField w)
      = layout (opField w) (ftField w) (chField w) (fsField w) (freqField w) (gainField w) (qdField w) := by
        rw [hop, hft, hfs, hfreq, hgain]
    _ = w := layout_fields w

/-- What a row builds from a word it selects is well-formed and has that word. -/
theorem encode_build {w : CmdWord} {r : Row} (hr : r ∈ opcodeTable) (hs : r.selects w = true) :
    (r.build w).WellFormed ∧ encode (r.build w) = w := by
  simp only [opcodeTable, List.mem_cons, List.not_mem_nil, or_false] at hr
  rcases hr with rfl | rfl | rfl | rfl | rfl | rfl | rfl
  · exact ⟨decide_eq_true (fitsCh_chField w), encode_init_fields hs⟩
  · exact ⟨rfl, encodeBegin_fields .peak ((rowBeginPeak_selects w).1 hs)⟩
  · exact ⟨rfl, encodeBegin_fields .highPass ((rowBeginHp_selects w).1 hs)⟩
  · exact ⟨rfl, encodeBegin_fields .lowPass ((rowBeginLp_selects w).1 hs)⟩
  · exact ⟨rfl, encodeBegin_fields .lowShelf ((rowBeginLs_selects w).1 hs)⟩
  · exact ⟨rfl, encodeBegin_fields .highShelf ((rowBeginHs_selects w).1 hs)⟩
  · exact ⟨decide_eq_true (fitsCh_chField w), encode_smp_fields hs⟩

/-- Settles O39: the row that decodes the word keeps every field of it. -/
theorem encodeOfDecode : Obligations.EncodeOfDecode := by
  intro w i h
  obtain ⟨r, hr, hs, rfl⟩ := exists_row_of_decode h
  exact encode_build hr hs

/-- A word written out is decoded by comparing it with the encoding. -/
theorem decode_of_encode_eq {w : CmdWord} {i : Instr} (hwf : i.WellFormed) (h : encode i = w) : decode w = .ok i :=
  h ▸ decodeOfEncode i hwf

/-- Settles O42: each word is the encoding of the instruction it stands for. -/
theorem sampleWordsDecode : Obligations.SampleWordsDecode :=
  ⟨decode_of_encode_eq rfl (by decide), decode_of_encode_eq rfl (by decide), decode_of_encode_eq rfl (by decide),
    decode_of_encode_eq rfl (by decide), decode_of_encode_eq rfl (by decide), decode_of_encode_eq rfl (by decide),
    decode_of_encode_eq rfl (by decide)⟩

/-! ## The illegal words (30_encoding R54) -/

/-- The rows' words by their fields: formats I, B and S (30_encoding R48 to R51). -/
theorem exists_row_iff {w : CmdWord} : (∃ r ∈ opcodeTable, r.selects w = true) ↔
    (opField w = 1 ∧ ftField w = 0 ∧ fsField w = 0 ∧ freqField w = 0 ∧ gainField w = 0 ∧ qdField w = 0) ∨
    (opField w = 2 ∧ ¬5 ≤ ftField w ∧ chField w = 0) ∨
    (opField w = 3 ∧ ftField w = 0 ∧ fsField w = 0 ∧ freqField w = 0 ∧ gainField w = 0) := by
  have hft : ∀ ft : BitVec 4, ¬5 ≤ ft ↔ ft = 0 ∨ ft = 1 ∨ ft = 2 ∨ ft = 3 ∨ ft = 4 := by decide
  simp only [opcodeTable, List.exists_mem_cons_iff, List.not_mem_nil, false_and, exists_false, or_false,
    rowInit_selects, rowBeginPeak_selects, rowBeginHp_selects, rowBeginLp_selects, rowBeginLs_selects,
    rowBeginHs_selects, rowSmp_selects, hft, or_and_right, and_or_left, or_assoc]

/-- A concatenation is zero when both its parts are. -/
theorem append_eq_zero_iff {m n : Nat} {a : BitVec m} {b : BitVec n} : a ++ b = 0 ↔ a = 0 ∧ b = 0 := by
  constructor
  · intro h
    have ha : (a ++ b).extractLsb' n m = a := BitVec.extractLsb'_append_eq_left
    have hb : (a ++ b).extractLsb' 0 n = b := BitVec.extractLsb'_append_eq_right
    rw [h] at ha hb
    exact ⟨by simpa using ha.symm, by simpa using hb.symm⟩
  · rintro ⟨rfl, rfl⟩
    exact BitVec.zero_append_zero

/-- The operands of format S that are not its sample, `CMD[127:32]`. -/
theorem upperOperands_eq_zero {w : CmdWord} :
    w.extractLsb' 32 96 = 0 ↔ fsField w = 0 ∧ freqField w = 0 ∧ gainField w = 0 := by
  have h : fsField w ++ freqField w ++ gainField w = w.extractLsb' 32 96 := by
    have hfs : fsField w ++ freqField w = w.extractLsb' 64 64 := BitVec.extractLsb'_append_extractLsb'_eq_extractLsb' rfl
    rw [hfs]
    exact BitVec.extractLsb'_append_extractLsb'_eq_extractLsb' rfl
  rw [← h, append_eq_zero_iff, append_eq_zero_iff, and_assoc]

/-- All four operands, `CMD[127:0]`. -/
theorem operands_eq_zero {w : CmdWord} :
    w.extractLsb' 0 128 = 0 ↔ fsField w = 0 ∧ freqField w = 0 ∧ gainField w = 0 ∧ qdField w = 0 := by
  have h : w.extractLsb' 32 96 ++ qdField w = w.extractLsb' 0 128 :=
    BitVec.extractLsb'_append_extractLsb'_eq_extractLsb' rfl
  rw [← h, append_eq_zero_iff, upperOperands_eq_zero, and_assoc, and_assoc]

/-- Every OP is reserved or that of one format (30_encoding R48 to R50). -/
theorem op_cases (op : BitVec 4) : ((op = 0 ∨ 4 ≤ op) ∧ op ≠ 1 ∧ op ≠ 2 ∧ op ≠ 3) ∨ op = 1 ∨ op = 2 ∨ op = 3 := by
  decide +revert

/-- The illegal words by their fields: OP fixes which of the four cases applies. -/
theorem decode_error_iff_fields {w : CmdWord} : (∃ e, decode w = .error e) ↔
    (opField w = 0 ∨ 4 ≤ opField w) ∨
    (opField w = 1 ∧ (ftField w ≠ 0 ∨ w.extractLsb' 0 128 ≠ 0)) ∨
    (opField w = 2 ∧ (5 ≤ ftField w ∨ chField w ≠ 0)) ∨
    (opField w = 3 ∧ (ftField w ≠ 0 ∨ w.extractLsb' 32 96 ≠ 0)) := by
  simp only [decode_error_iff, exists_row_iff, ne_eq, operands_eq_zero, upperOperands_eq_zero]
  rcases op_cases (opField w) with ⟨h, h1, h2, h3⟩ | h | h | h
  · simp only [h, h1, h2, h3, false_and, or_false, not_false_eq_true]
  · simp [h, imp_iff_not_or]
  · simp [h, imp_iff_not_or]
  · simp [h, imp_iff_not_or]

/-! ## The response words (30_encoding R55) -/

@[simp] theorem kind_rspLayout (kind : BitVec 4) (ch : BitVec 8) (d : BitVec 32) :
    (rspLayout kind ch d).extractLsb' 40 4 = kind :=
  (BitVec.extractLsb'_append_eq_of_le (by decide)).trans BitVec.extractLsb'_append_eq_left

@[simp] theorem ch_rspLayout (kind : BitVec 4) (ch : BitVec 8) (d : BitVec 32) :
    (rspLayout kind ch d).extractLsb' 32 8 = ch :=
  (BitVec.extractLsb'_append_eq_of_le (by decide)).trans BitVec.extractLsb'_append_eq_right

@[simp] theorem data_rspLayout (kind : BitVec 4) (ch : BitVec 8) (d : BitVec 32) :
    (rspLayout kind ch d).extractLsb' 0 32 = d := BitVec.extractLsb'_append_eq_right

/-- Settles O43: the fields are those the word is laid out from. -/
theorem responseWordFields : Obligations.ResponseWordFields := by
  refine ⟨by decide, by decide, fun c v => ?_, fun code => ?_, fun r => ?_⟩
  · exact ⟨kind_rspLayout _ _ _, ch_rspLayout _ _ _, data_rspLayout _ _ _⟩
  · exact ⟨kind_rspLayout _ _ _, ch_rspLayout _ _ _, data_rspLayout _ _ _⟩
  · cases r with
    | ack => exact .inl (kind_rspLayout _ _ _)
    | data c v => exact .inr (.inl (kind_rspLayout _ _ _))
    | err code => exact .inr (.inr (kind_rspLayout _ _ _))

end Sys2Proof
end

section
/-! PROOF. The family of 30_encoding, the machine: what a step does with a command word, the one response to it, and the
two orders of PROCESS (30_encoding R45, R46, R54, R56, R60). -/

namespace Sys2Proof.Machine

/-! ## A step on a command word (30_encoding R45, R46) -/

theorem step_command_ok {s : State} {w : CmdWord} {i : Instr} {rest : List HostInput}
    (hc : s.cmdIn = .command w :: rest) (hd : decode w = .ok i) : step s = exec i (setInputs rest s) :=
  (step_command hc).trans (acceptWord_ok hd)

/-- Settles O22: the fault state is checked before decoding as the instruction checks it. -/
theorem stepRunsDecoded : Obligations.StepRunsDecoded :=
  fun _ _ _ _ hc hd => step_command_ok hc hd

/-- The table's question decodes the word the host would push (20_memory R32). -/
theorem decode_tableWord {nbits w : Nat} {i : Instr} (h : decodeTableWord nbits w = some i) :
    decode (tableWord nbits w) = .ok i := by
  rw [decodeTableWord] at h
  split at h
  · change (decode (tableWord nbits w)).toOption = some i at h
    cases hd : decode (tableWord nbits w) with
    | error e => rw [hd] at h; cases h
    | ok j => rw [hd] at h; cases h; rfl
  · cases h

/-- Settles O25: the placed word decodes, and taking it leaves the inputs that were there before. -/
theorem placedInstructionRuns : Obligations.PlacedInstructionRuns := by
  intro nbits w i s h
  exact step_command_ok (withFetchWord_cmdIn nbits w s) (decode_tableWord h)

/-- A word that is refused raises ILLEGAL_CMD and does nothing else (60_exceptions R129). -/
theorem step_illegal {s : State} {w : CmdWord} {e : Illegal} {rest : List HostInput} (hf : s.fault = false)
    (hc : s.cmdIn = .command w :: rest) (hd : decode w = .error e) :
    step s = .next { s with cmdIn := rest, fault := true, fcode := 1, rspOut := s.rspOut ++ [0xF0000000001#44] } := by
  have hword : rspWord (.err (causeCode .illegalCmd)) = 0xF0000000001#44 := by decide
  have hf' : (setInputs rest s).fault = false := hf
  rw [step_command hc, acceptWord_illegal hf' hd]
  exact raiseFault_eq _ hword

/-- Settles O10: a word no row selects is refused. -/
theorem illegalWordRaisesFault : Obligations.IllegalWordRaisesFault := by
  intro s w rest hf hc hnone
  obtain ⟨e, hd⟩ := decode_error_iff.2 fun ⟨r, hr, hs⟩ => hnone r hr (Row.selects_iff.1 hs)
  exact step_illegal hf hc hd

/-- Settles O41: the illegal words by their fields, and what a step does with one. -/
theorem illegalWordsAreThese : Obligations.IllegalWordsAreThese := by
  refine ⟨fun w => decode_error_iff_fields, decode_error_iff_fields.2 (by decide),
    decode_error_iff_fields.2 (by decide), fun s w e rest hf hc hd => ?_⟩
  exact ⟨_, step_illegal hf hc hd, rfl, rfl⟩

/-! ## Every step answers (30_encoding R46, 70_reset R156) -/

/-- With a slot for every established channel, every SMP answers. -/
theorem exec_smp_answers {s : State} (c : Nat) (x : F) (hf : s.fault = false) (hn : s.nch ≤ nchMax s) :
    ∃ t, exec (.smp c x) s = .next t := by
  cases hc : channelInRange c s with
  | false => exact ⟨_, exec_smp_outOfRange x hf hc⟩
  | true =>
    cases hv : s.cv with
    | false => exact ⟨_, exec_smp_noCoef x hf hc hv⟩
    | true =>
      have hlt : c < nchMax s := (channelInRange_true.1 hc).trans_le hn
      obtain ⟨g, hg⟩ := Option.isSome_iff_exists.1 (channel_isSome.2 hlt)
      exact ⟨_, exec_smp_ok hf hc hv hg⟩

theorem exec_init_answers {s : State} (n : Nat) (hf : s.fault = false) : ∃ t, exec (.init n) s = .next t := by
  cases hn : countFits n s with
  | false => exact ⟨_, exec_init_tooMany hf hn⟩
  | true => exact ⟨_, exec_init_ok hf hn⟩

theorem exec_begin_live {s : State} (ft : FilterType) (fs freq gain q : F) (hf : s.fault = false) :
    exec (beginInstr ft fs freq gain q) s = .next (respond .ack (setCoef (design machineNum ft fs freq gain q) s)) :=
  (exec_beginInstr ft fs freq gain q s).trans (beginWith_live ft fs freq gain q hf)

/-- With a slot for every established channel, every instruction answers. -/
theorem exec_answers {s : State} (i : Instr) (hn : s.nch ≤ nchMax s) : ∃ t, exec i s = .next t := by
  cases hf : s.fault with
  | true => exact ⟨_, exec_faulted i hf⟩
  | false =>
    cases i with
    | init n => exact exec_init_answers n hf
    | beginPeak fs freq gain q => exact ⟨_, exec_begin_live .peak fs freq gain q hf⟩
    | beginHp fs freq gain q => exact ⟨_, exec_begin_live .highPass fs freq gain q hf⟩
    | beginLp fs freq gain q => exact ⟨_, exec_begin_live .lowPass fs freq gain q hf⟩
    | beginLs fs freq gain q => exact ⟨_, exec_begin_live .lowShelf fs freq gain q hf⟩
    | beginHs fs freq gain q => exact ⟨_, exec_begin_live .highShelf fs freq gain q hf⟩
    | smp c x => exact exec_smp_answers c x hf hn

theorem acceptWord_answers {s : State} (w : CmdWord) (hn : s.nch ≤ nchMax s) : ∃ t, acceptWord w s = .next t := by
  cases hd : decode w with
  | ok i => exact acceptWord_ok hd ▸ exec_answers i hn
  | error e =>
    cases hf : s.fault with
    | true => exact ⟨_, acceptWord_faulted w hf⟩
    | false => exact ⟨_, acceptWord_illegal hf hd⟩

/-- Settles O4: of the inputs only an SMP could stop, and a legal state has a slot for each of its channels. -/
theorem legalStepAnswers : Obligations.LegalStepAnswers := by
  rintro s ⟨-, -, hn, -, -⟩
  cases hc : s.cmdIn with
  | nil => exact ⟨s, step_idle hc⟩
  | cons a rest =>
    cases a with
    | hwReset => exact ⟨_, step_hwReset hc⟩
    | command w =>
      have hn' : (setInputs rest s).nch ≤ nchMax (setInputs rest s) := hn
      exact step_command hc ▸ acceptWord_answers w hn'

/-! ## The one response (30_encoding R56) -/

/-- What the response to an instruction that leaves FAULT = 0 is (30_encoding R56). -/
def AnswersWith (i : Instr) (r : Response) : Prop :=
  (∃ c x v, i = .smp c x ∧ r = .data c v) ∨ ((∀ c x, i ≠ .smp c x) ∧ r = .ack)

/-- The response of each way an instruction can answer. -/
theorem Answers.response {s t : State} {i : Instr} (ha : Answers s i t) :
    ∃ r, t.rspOut = s.rspOut ++ [rspWord r] ∧ (t.fault = true → r = .err t.fcode) ∧
      (t.fault = false → AnswersWith i r) := by
  cases ha with
  | faulted i hf => exact ⟨_, rfl, fun _ => rfl, fun h => absurd (hf.symm.trans h) nofun⟩
  | tooMany | outOfRange | noCoef => exact ⟨_, rfl, fun _ => rfl, nofun⟩
  | established n hf => exact ⟨_, rfl, fun h => absurd (hf.symm.trans h) nofun, fun _ => .inr ⟨nofun, rfl⟩⟩
  | designed i ft fs freq gain q hi hf =>
    have hne : ∀ c x, i ≠ .smp c x := fun c x h => smp_ne_beginInstr c x ft fs freq gain q (h ▸ hi)
    exact ⟨_, rfl, fun h => absurd (hf.symm.trans h) nofun, fun _ => .inr ⟨hne, rfl⟩⟩
  | filtered c x g hf =>
    exact ⟨_, rfl, fun h => absurd (hf.symm.trans h) nofun, fun _ => .inl ⟨c, x, _, rfl, rfl⟩⟩

/-- The response of a step on a command word. -/
theorem step_command_response {s t : State} {w : CmdWord} {rest : List HostInput} (hc : s.cmdIn = .command w :: rest)
    (h : step s = .next t) :
    ∃ r, t.rspOut = s.rspOut ++ [rspWord r] ∧ (t.fault = true → r = .err t.fcode) ∧
      (t.fault = false → ∃ i, decode w = .ok i ∧ AnswersWith i r) := by
  cases steps_of_step h with
  | idle hc' | reset _ hc' => cases hc.symm.trans hc'
  | faulted _ _ _ hf => exact ⟨_, rfl, fun _ => rfl, fun h => absurd (hf.symm.trans h) nofun⟩
  | illegal => exact ⟨_, rfl, fun _ => rfl, nofun⟩
  | executed _ i _ _ hc' _ hd ha =>
    cases hc.symm.trans hc'
    obtain ⟨r, hout, herr, hlive⟩ := ha.response
    exact ⟨r, hout, herr, fun hf => ⟨i, hd, hlive hf⟩⟩

/-- Settles O5: the step answers, and each way it can answer fixes the response. -/
theorem oneResponsePerCommand : Obligations.OneResponsePerCommand := by
  intro s w rest hl hc
  obtain ⟨t, h⟩ := legalStepAnswers s hl
  obtain ⟨r, hout, herr, hlive⟩ := step_command_response hc h
  refine ⟨t, r, h, (step_command_appends_response hc h).1, hout, herr, fun hf => ?_⟩
  obtain ⟨i, hd, ⟨c, x, v, rfl, rfl⟩ | ⟨hne, rfl⟩⟩ := hlive hf
  · rw [hd]
    exact ⟨v, rfl⟩
  · rw [hd]
    cases i with
    | smp c x => exact absurd rfl (hne c x)
    | _ => rfl

/-! ## A list of SMPs, channel by channel (20_memory R39) -/

/-- The commands `SMP c, x` of a list of samples with their channels. -/
def smps (l : List (Nat × F)) : List Instr := l.map fun p => .smp p.1 p.2

/-- The samples of channel c, in order. -/
def samplesOf (c : Nat) (l : List (Nat × F)) : List F := (l.filter fun p => p.1 == c).map Prod.snd

/-- One channel's history after its samples (43_sample_ops R111). -/
def playHistory (k : Coef) (g : ChannelHistory) (xs : List F) : ChannelHistory :=
  xs.foldl (fun g x => (recurrence machineNum k g x).1) g

/-- The state with every channel's samples of the list played on that channel, and no response. -/
def playSamples (l : List (Nat × F)) (s : State) : State :=
  { s with hist := s.hist.mapIdx fun c g => playHistory s.coef g (samplesOf c l) }

theorem samplesOf_cons_self (c : Nat) (x : F) (l : List (Nat × F)) : samplesOf c ((c, x) :: l) = x :: samplesOf c l := by
  simp [samplesOf]

theorem samplesOf_cons_other {c c' : Nat} (x : F) (l : List (Nat × F)) (hne : c' ≠ c) :
    samplesOf c ((c', x) :: l) = samplesOf c l := by
  simp [samplesOf, hne]

@[simp] theorem playSamples_nil (s : State) : playSamples [] s = s := by
  have h : (s.hist.mapIdx fun c g => playHistory s.coef g (samplesOf c [])) = s.hist :=
    List.ext_getElem? fun c => by simp [samplesOf, playHistory]
  rw [playSamples, h]

/-- What is played depends on each channel's samples only. -/
theorem playSamples_congr {l l' : List (Nat × F)} (s : State) (h : ∀ c, samplesOf c l = samplesOf c l') :
    playSamples l s = playSamples l' s := by
  simp only [playSamples, h]

/-- An SMP plays the first sample of its channel; the others of its channel follow, and no other channel sees it. -/
theorem playSamples_afterSmp {c : Nat} {x : F} {g : ChannelHistory} {s : State} (l : List (Nat × F))
    (hg : channel c s = some g) :
    (playSamples l (afterSmp c x g s)).quiet = (playSamples ((c, x) :: l) s).quiet := by
  have hhist : ((s.hist.set c (recurrence machineNum s.coef g x).1).mapIdx fun c' g' =>
      playHistory s.coef g' (samplesOf c' l)) =
      s.hist.mapIdx fun c' g' => playHistory s.coef g' (samplesOf c' ((c, x) :: l)) := by
    refine List.ext_getElem? fun c' => ?_
    by_cases hc : c' = c
    · subst hc
      have hlt : c' < s.hist.length := lt_nchMax_of_channel hg
      have hget : s.hist[c']? = some g := hg
      rw [List.getElem?_mapIdx, List.getElem?_mapIdx, List.getElem?_set_self hlt, hget, samplesOf_cons_self]
      rfl
    · simp [List.getElem?_set_ne (Ne.symm hc), samplesOf_cons_other x l (Ne.symm hc)]
  simp [playSamples, State.quiet, afterSmp, hhist, setChannel, respond]

/-- On established channels with CV = 1 a list of SMPs runs through, and leaves each channel as its own samples leave it. -/
theorem execAll_smps {s : State} (l : List (Nat × F)) (hf : s.fault = false) (hv : s.cv = true) (hn : s.nch ≤ nchMax s)
    (hl : ∀ p ∈ l, p.1 < s.nch) : ∃ t, execAll (smps l) s = .next t ∧ t.quiet = (playSamples l s).quiet := by
  induction l generalizing s with
  | nil => exact ⟨s, rfl, by simp⟩
  | cons p l ih =>
    obtain ⟨c, x⟩ := p
    have hc : c < s.nch := hl (c, x) List.mem_cons_self
    obtain ⟨g, hg⟩ := Option.isSome_iff_exists.1 (channel_isSome.2 (hc.trans_le hn))
    have hfirst : exec (.smp c x) s = .next (afterSmp c x g s) := exec_smp_ok hf (channelInRange_true.2 hc) hv hg
    have hn' : (afterSmp c x g s).nch ≤ nchMax (afterSmp c x g s) := by simpa [afterSmp] using hn
    obtain ⟨t, ht, hquiet⟩ := ih (s := afterSmp c x g s) hf hv hn' fun p hp => hl p (List.mem_cons_of_mem _ hp)
    exact ⟨t, (execAll_cons_of_exec _ hfirst).trans ht, hquiet.trans (playSamples_afterSmp l hg)⟩

/-- Two lists of SMPs with the same samples of each channel leave the same state. -/
theorem execAll_smps_quiet_eq {s : State} {l l' : List (Nat × F)} (hf : s.fault = false) (hv : s.cv = true)
    (hn : s.nch ≤ nchMax s) (hl : ∀ p ∈ l, p.1 < s.nch) (hl' : ∀ p ∈ l', p.1 < s.nch)
    (h : ∀ c, samplesOf c l = samplesOf c l') :
    ∃ t t', execAll (smps l) s = .next t ∧ execAll (smps l') s = .next t' ∧ t.quiet = t'.quiet := by
  obtain ⟨t, ht, hq⟩ := execAll_smps l hf hv hn hl
  obtain ⟨t', ht', hq'⟩ := execAll_smps l' hf hv hn hl'
  exact ⟨t, t', ht, ht', by rw [hq, hq', playSamples_congr s h]⟩

/-! ## The two orders of PROCESS (30_encoding R60) -/

/-- The sample of a slot with its channel, where the buffer has that slot. -/
def sampleOfSlot (buf : Buffer) (slot : Nat × Nat) : Option (Nat × F) :=
  ((buf[slot.1]?).bind fun row => row[slot.2]?).map fun x => (slot.1, x)

/-- The samples of a list of slots. -/
def samplesOfSlots (buf : Buffer) (slots : List (Nat × Nat)) : List (Nat × F) := slots.filterMap (sampleOfSlot buf)

theorem filterMap_smpOfSlot (buf : Buffer) (slots : List (Nat × Nat)) :
    slots.filterMap (smpOfSlot buf) = smps (samplesOfSlots buf slots) := by
  rw [smps, samplesOfSlots, List.map_filterMap]
  exact List.filterMap_congr fun slot _ => by simp [smpOfSlot, sampleOfSlot, Function.comp_def]

/-- The channel of a slot's sample is the slot's. -/
theorem eq_of_sampleOfSlot {buf : Buffer} {slot : Nat × Nat} {p : Nat × F} (h : sampleOfSlot buf slot = some p) :
    p.1 = slot.1 := by
  obtain ⟨x, -, rfl⟩ := Option.map_eq_some_iff.1 h
  rfl

/-- A channel's samples are those of its own slots. -/
theorem samplesOf_samplesOfSlots (c : Nat) (buf : Buffer) (slots : List (Nat × Nat)) :
    samplesOf c (samplesOfSlots buf slots) = (samplesOfSlots buf (slots.filter fun slot => slot.1 == c)).map Prod.snd := by
  rw [samplesOf, samplesOfSlots, samplesOfSlots, List.filter_filterMap, List.filterMap_filter]
  congr 1
  refine List.filterMap_congr fun slot _ => ?_
  cases h : sampleOfSlot buf slot with
  | none => simp
  | some p => simp [Option.filter, eq_of_sampleOfSlot h]

/-- Of the blocks of n channels the one of channel c remains. -/
theorem flatMap_channel (n c : Nat) (l : List (Nat × Nat)) :
    ((List.range n).flatMap fun c' => if c' = c then l else []) = if c < n then l else [] := by
  induction n with
  | zero => simp
  | succ n ih =>
    rw [List.range_succ, List.flatMap_append, ih, List.flatMap_singleton]
    rcases Nat.lt_trichotomy c n with h | h | h
    · simp [h, h.ne', Nat.lt_succ_of_lt h]
    · simp [h]
    · simp [h.ne, h.not_gt, Nat.not_lt.2 (Nat.succ_le_of_lt h)]

/-- The slots of one channel, channel by channel: a block of their own. -/
theorem filter_slotsChannelMajor (n m c : Nat) : (slotsChannelMajor n m).filter (fun slot => slot.1 == c) =
    if c < n then (List.range m).map fun k => (c, k) else [] := by
  rw [slotsChannelMajor, List.filter_flatMap, ← flatMap_channel]
  refine List.flatMap_congr fun c' _ => ?_
  by_cases h : c' = c <;> simp [h]

/-- The slots of one channel, frame by frame: one in each frame. -/
theorem filter_slotsFrameMajor (n m c : Nat) : (slotsFrameMajor n m).filter (fun slot => slot.1 == c) =
    if c < n then (List.range m).map fun k => (c, k) else [] := by
  have hframe (k : Nat) : ((List.range n).map fun c' => (c', k)).filter (fun slot => slot.1 == c) =
      if c < n then [(c, k)] else [] := by
    rw [List.map_eq_flatMap, List.filter_flatMap, ← flatMap_channel]
    refine List.flatMap_congr fun c' _ => ?_
    by_cases h : c' = c <;> simp [h]
  rw [slotsFrameMajor, List.filter_flatMap]
  simp only [hframe]
  by_cases h : c < n <;> simp [h, List.map_eq_flatMap]

theorem mem_slotsChannelMajor {n m : Nat} {slot : Nat × Nat} (h : slot ∈ slotsChannelMajor n m) : slot.1 < n := by
  obtain ⟨c, hc, hk⟩ := List.mem_flatMap.1 h
  obtain ⟨k, -, rfl⟩ := List.mem_map.1 hk
  exact List.mem_range.1 hc

theorem mem_slotsFrameMajor {n m : Nat} {slot : Nat × Nat} (h : slot ∈ slotsFrameMajor n m) : slot.1 < n := by
  obtain ⟨k, -, hslot⟩ := List.mem_flatMap.1 h
  obtain ⟨c, hc, rfl⟩ := List.mem_map.1 hslot
  exact List.mem_range.1 hc

/-- Samples of slots on established channels are on established channels. -/
theorem samplesOfSlots_lt {buf : Buffer} {slots : List (Nat × Nat)} {n : Nat} (h : ∀ slot ∈ slots, slot.1 < n) :
    ∀ p ∈ samplesOfSlots buf slots, p.1 < n := by
  intro p hp
  obtain ⟨slot, hslot, hsome⟩ := List.mem_filterMap.1 hp
  exact eq_of_sampleOfSlot hsome ▸ h slot hslot

/-- Settles O36: both lists load the same design, and each channel has its samples in the order of the frames in both. -/
theorem processOrdersAgree : Obligations.ProcessOrdersAgree := by
  rintro ft fs freq gain q n m buf s ⟨-, -, hmax, -, -⟩ hf hn
  have hbegin := exec_begin_live ft fs freq gain q hf
  rw [processCM, processFM, filterMap_smpOfSlot, filterMap_smpOfSlot, execAll_cons_of_exec _ hbegin,
    execAll_cons_of_exec _ hbegin]
  refine execAll_smps_quiet_eq hf rfl hmax
    (samplesOfSlots_lt fun slot h => (mem_slotsChannelMajor h).trans_le hn)
    (samplesOfSlots_lt fun slot h => (mem_slotsFrameMajor h).trans_le hn) fun c => ?_
  rw [samplesOf_samplesOfSlots, samplesOf_samplesOfSlots, filter_slotsChannelMajor, filter_slotsFrameMajor]

end Sys2Proof.Machine
end

section
/-! PROOF. The family of 40_numerics, the operations: the order of values, the one rounding, and addition, multiplication,
division, square root and negation case by case (40_numerics R66 to R70). -/

namespace Sys2Proof.Machine

/-! ## Values of patterns, and their order (40_numerics R66) -/

theorem realValue_pack {neg : Bool} {k : Nat} (hk : k < 2 ^ 31) :
    realValue (pack neg k) = (if neg then -1 else 1) * (unitsOfMag k : ℝ) * (2 : ℝ) ^ (-149 : ℤ) := by
  rw [realValue_eq, signBit_pack hk, magUnits, magBits_pack hk]

theorem realValue_eq_zero_iff {a : F} : realValue a = 0 ↔ isZero a = true := by
  rw [← abs_eq_zero, abs_realValue, mul_eq_zero_iff_right (by positivity), Nat.cast_eq_zero, magUnits_eq_zero]

theorem realValue_of_sign {a : F} (h : signBit a = false) : realValue a = |realValue a| := by
  rw [abs_realValue, realValue_eq, h]
  simp

theorem realValue_nonneg_iff {a : F} : 0 ≤ realValue a ↔ isZero a = true ∨ signBit a = false := by
  rw [← realValue_eq_zero_iff]
  cases h : signBit a
  · rw [realValue_of_sign h]
    simp
  · have hneg := realValue_of_sign (a := fnegBits a) (by rw [signBit_fneg, h]; rfl)
    rw [realValue_fneg, abs_neg] at hneg
    have habs := abs_nonneg (realValue a)
    simp only [Bool.true_eq_false, or_false]
    constructor <;> intro <;> linarith

theorem abs_realValue_le_iff {a b : F} : |realValue a| ≤ |realValue b| ↔ magBits a ≤ magBits b := by
  rw [abs_realValue, abs_realValue, mul_le_mul_iff_left₀ (by positivity), Nat.cast_le]
  exact unitsOfMag_strictMono.le_iff_le

theorem realValue_oneF : realValue oneF = 1 := by
  simp only [realValue, show signBit oneF = false by decide, show expField oneF = 127 by decide,
    show fracField oneF = 0 by decide]
  norm_num

theorem unitsOfMag_two_pow_24 : unitsOfMag (2 ^ 24) = 2 ^ 24 := by decide

/-! ## The rounding operation (40_numerics R67) -/

theorem realRoundsUp_div_iff {k p q : Nat} (hq : 0 < q) : RealRoundsUp k ((p : ℝ) / q) ↔ RoundsUp k p q := by
  have hq' : (0 : ℝ) < q := Nat.cast_pos.2 hq
  unfold RealRoundsUp RoundsUp
  rw [← mul_div_assoc, lt_div_iff₀ hq', eq_div_iff hq'.ne']
  norm_cast

/-- `roundUnits` rounds its fraction of units of 2^-149, of either sign. -/
theorem roundUnits_isRounded (neg : Bool) {p q : Nat} (hp : 0 < p) (hq : 0 < q) :
    IsRounded ((if neg then -1 else 1) * ((p : ℝ) / q) * (2 : ℝ) ^ (-149 : ℤ)) (roundUnits neg p q) := by
  obtain ⟨k, hlo, hhi, hchoice⟩ := roundUnits_spec neg (p := p) hq
  have hq' : (0 : ℝ) < q := Nat.cast_pos.2 hq
  refine isRounded_of_neighbours neg (k := k) (div_pos (Nat.cast_pos.2 hp) hq') ?_ ?_ ?_
  · rw [le_div_iff₀ hq']
    exact_mod_cast hlo
  · rw [div_lt_iff₀ hq']
    exact_mod_cast hhi
  · rwa [realRoundsUp_div_iff hq]

/-- Settles O44: `roundUnits` chooses between the two neighbours of the fraction as `round` does. -/
theorem roundingIsNearestEven : Obligations.RoundingIsNearestEven :=
  fun neg _ _ hp hq => roundUnits_isRounded neg hp hq

/-! ## Addition and subtraction (40_numerics R68) -/

theorem isNaN_faddBits (cfg : Config) {a b : F} (h : isNaN a = true ∨ isNaN b = true) :
    isNaN (faddBits cfg a b) = true := by
  rw [faddBits, if_pos (by simpa using h)]
  exact isNaN_nanOf cfg .add a b

theorem isNaN_faddBits_inf (cfg : Config) {a b : F} (ha : isInf a = true) (hb : isInf b = true)
    (hs : signBit a ≠ signBit b) : isNaN (faddBits cfg a b) = true := by
  simp [faddBits, ha, hb, hs, isNaN_nanOf, not_nan_of_inf ha, not_nan_of_inf hb]

theorem faddBits_inf_left (cfg : Config) {a b : F} (ha : isInf a = true) (hb : isFinite b = true ∨ b = a) :
    faddBits cfg a b = a := by
  rcases hb with hb | rfl
  · simp [faddBits, ha, not_nan_of_inf ha, not_nan_of_finite hb]
  · simp [faddBits, ha, not_nan_of_inf ha]

theorem faddBits_inf_right (cfg : Config) {a b : F} (ha : isFinite a = true) (hb : isInf b = true) :
    faddBits cfg a b = b := by
  simp [faddBits, hb, not_nan_of_inf hb, not_nan_of_finite ha]

theorem faddBits_finite (cfg : Config) {a b : F} (ha : isFinite a = true) (hb : isFinite b = true) :
    faddBits cfg a b =
      if units a + units b = 0 then zeroF (signBit a && signBit b)
      else roundUnits (decide (units a + units b < 0)) (units a + units b).natAbs 1 := by
  simp [faddBits, not_nan_of_finite ha, not_nan_of_finite hb]

theorem realValue_add (a b : F) :
    realValue a + realValue b = ((units a + units b : ℤ) : ℝ) * (2 : ℝ) ^ (-149 : ℤ) := by
  rw [realValue_units, realValue_units, Int.cast_add, add_mul]

theorem realValue_add_eq_zero_iff {a b : F} : realValue a + realValue b = 0 ↔ units a + units b = 0 := by
  rw [realValue_add, mul_eq_zero_iff_right (by positivity), Int.cast_eq_zero]

/-- A count of units is its sign times its size. -/
theorem sign_mul_natAbs (n : ℤ) : (if decide (n < 0) = true then -1 else 1 : ℝ) * (n.natAbs : ℝ) = n := by
  rw [Nat.cast_natAbs, Int.cast_abs]
  rcases lt_or_ge n 0 with h | h
  · rw [if_pos (by simpa using h), abs_of_neg (by exact_mod_cast h)]
    ring
  · rw [if_neg (by simpa using h), abs_of_nonneg (by exact_mod_cast h), one_mul]

theorem faddBits_isRounded (cfg : Config) {a b : F} (ha : isFinite a = true) (hb : isFinite b = true)
    (hr : realValue a + realValue b ≠ 0) : IsRounded (realValue a + realValue b) (faddBits cfg a b) := by
  rw [Ne, realValue_add_eq_zero_iff] at hr
  rw [faddBits_finite cfg ha hb, if_neg hr, realValue_add, ← sign_mul_natAbs]
  simpa using roundUnits_isRounded (decide (units a + units b < 0)) (Int.natAbs_pos.2 hr) one_pos

theorem eq_negZero_iff {a : F} : a = 0x80000000#32 ↔ isZero a = true ∧ signBit a = true := by
  constructor
  · rintro rfl
    decide
  · rintro ⟨hz, hs⟩
    rw [isZero_iff] at hz
    exact eq_of_sign_mag (hs.trans (by decide)) (hz.trans (by decide))

/-- A sum of value 0 is -0 only where both operands are. -/
theorem faddBits_of_sum_zero (cfg : Config) {a b : F} (ha : isFinite a = true) (hb : isFinite b = true)
    (hr : realValue a + realValue b = 0) :
    faddBits cfg a b = if a = 0x80000000#32 ∧ b = 0x80000000#32 then 0x80000000#32 else 0x00000000#32 := by
  rw [realValue_add_eq_zero_iff] at hr
  rw [faddBits_finite cfg ha hb, if_pos hr]
  have hboth : (signBit a && signBit b) = true ↔ a = 0x80000000#32 ∧ b = 0x80000000#32 := by
    rw [Bool.and_eq_true, eq_negZero_iff, eq_negZero_iff]
    constructor
    · rintro ⟨hsa, hsb⟩
      rw [units, units, if_pos hsa, if_pos hsb] at hr
      exact ⟨⟨(magUnits_eq_zero a).1 (by omega), hsa⟩, (magUnits_eq_zero b).1 (by omega), hsb⟩
    · rintro ⟨⟨-, hsa⟩, -, hsb⟩
      exact ⟨hsa, hsb⟩
  by_cases h : (signBit a && signBit b) = true
  · rw [if_pos (hboth.1 h), h]
    decide
  · rw [if_neg (mt hboth.2 h), Bool.eq_false_iff.2 h]
    decide

theorem isNaN_fsubBits_right (cfg : Config) (a : F) {b : F} (hb : isNaN b = true) : isNaN (fsubBits cfg a b) = true := by
  rw [fsubBits, if_pos hb]
  exact isNaN_nanOf cfg .sub a b

theorem fsubBits_eq_faddBits_fneg (cfg : Config) (a : F) {b : F} (hb : isNaN b = false) :
    fsubBits cfg a b = faddBits cfg a (fnegBits b) := by
  rw [fsubBits, if_neg (by simp [hb])]

/-- Settles O45, clause by clause. -/
theorem addAndSubtractRounded : Obligations.AddAndSubtractRounded := fun cfg a _ =>
  ⟨isNaN_faddBits cfg, isNaN_faddBits_inf cfg, faddBits_inf_left cfg, fun hb ha => faddBits_inf_right cfg ha hb,
    faddBits_isRounded cfg, faddBits_of_sum_zero cfg, isNaN_fsubBits_right cfg a, fsubBits_eq_faddBits_fneg cfg a⟩

/-! ## Multiplication and division (40_numerics R69) -/

theorem isNaN_fmulBits (cfg : Config) {a b : F} (h : isNaN a = true ∨ isNaN b = true) :
    isNaN (fmulBits cfg a b) = true := by
  rw [fmulBits, if_pos (by simpa using h)]
  exact isNaN_nanOf cfg .mul a b

theorem isNaN_fdivBits (cfg : Config) {a b : F} (h : isNaN a = true ∨ isNaN b = true) :
    isNaN (fdivBits cfg a b) = true := by
  rw [fdivBits, if_pos (by simpa using h)]
  exact isNaN_nanOf cfg .div a b

theorem not_nan_of_zero {a : F} (h : isZero a = true) : isNaN a = false ∧ isInf a = false :=
  not_nan_of_finite (finite_of_zero h)

theorem isNaN_fmulBits_zero_inf (cfg : Config) {a b : F}
    (h : (isZero a = true ∧ isInf b = true) ∨ (isInf a = true ∧ isZero b = true)) : isNaN (fmulBits cfg a b) = true := by
  rcases h with ⟨ha, hb⟩ | ⟨ha, hb⟩
  · simp [fmulBits, ha, hb, not_nan_of_zero ha, not_nan_of_inf hb, isNaN_nanOf]
  · simp [fmulBits, ha, hb, not_nan_of_inf ha, not_nan_of_zero hb, isNaN_nanOf]

theorem fmulBits_inf (cfg : Config) {a b : F}
    (h : (isInf a = true ∧ isInf b = true) ∨ (isInf a = true ∧ isFinite b = true ∧ isZero b = false) ∨
      (isFinite a = true ∧ isZero a = false ∧ isInf b = true)) :
    fmulBits cfg a b = infF (signBit a != signBit b) := by
  rcases h with ⟨ha, hb⟩ | ⟨ha, hb, hz⟩ | ⟨ha, hz, hb⟩
  · simp [fmulBits, ha, hb, not_nan_of_inf ha, not_nan_of_inf hb]
  · simp [fmulBits, ha, hz, not_nan_of_inf ha, not_nan_of_finite hb]
  · simp [fmulBits, hb, hz, not_nan_of_inf hb, not_nan_of_finite ha]

theorem fmulBits_zero (cfg : Config) {a b : F}
    (h : (isZero a = true ∧ isFinite b = true) ∨ (isFinite a = true ∧ isZero b = true)) :
    fmulBits cfg a b = zeroF (signBit a != signBit b) := by
  rcases h with ⟨ha, hb⟩ | ⟨ha, hb⟩
  · simp [fmulBits, ha, not_nan_of_zero ha, not_nan_of_finite hb]
  · simp [fmulBits, hb, not_nan_of_finite ha, not_nan_of_zero hb]

theorem magUnits_pos {a : F} (h : isZero a = false) : 0 < magUnits a :=
  Nat.pos_of_ne_zero fun h0 => by simp [(magUnits_eq_zero a).1 h0] at h

/-- The sign of a product or quotient is the exclusive-or of the signs. -/
theorem sign_mul_sign (s t : Bool) :
    (if (s != t) = true then -1 else 1 : ℝ) = (if s = true then -1 else 1) * (if t = true then -1 else 1) := by
  cases s <;> cases t <;> simp

theorem fmulBits_isRounded (cfg : Config) {a b : F} (ha : isFinite a = true) (hb : isFinite b = true)
    (haz : isZero a = false) (hbz : isZero b = false) : IsRounded (realValue a * realValue b) (fmulBits cfg a b) := by
  have hop : fmulBits cfg a b = roundUnits (signBit a != signBit b) (magUnits a * magUnits b) (2 ^ 149) := by
    simp [fmulBits, haz, hbz, not_nan_of_finite ha, not_nan_of_finite hb]
  rw [hop]
  convert roundUnits_isRounded (signBit a != signBit b) (Nat.mul_pos (magUnits_pos haz) (magUnits_pos hbz))
    (Nat.two_pow_pos 149) using 1
  rw [realValue_eq, realValue_eq, sign_mul_sign, zpow_neg]
  push_cast
  field_simp
  ring

theorem isNaN_fdivBits_same (cfg : Config) {a b : F}
    (h : (isZero a = true ∧ isZero b = true) ∨ (isInf a = true ∧ isInf b = true)) : isNaN (fdivBits cfg a b) = true := by
  rcases h with ⟨ha, hb⟩ | ⟨ha, hb⟩
  · simp [fdivBits, ha, hb, not_nan_of_zero ha, not_nan_of_zero hb, isNaN_nanOf]
  · simp [fdivBits, ha, hb, not_nan_of_inf ha, not_nan_of_inf hb, isNaN_nanOf]

theorem fdivBits_inf_left (cfg : Config) {a b : F} (ha : isInf a = true) (hb : isFinite b = true) :
    fdivBits cfg a b = infF (signBit a != signBit b) := by
  simp [fdivBits, ha, not_nan_of_inf ha, not_nan_of_finite hb]

theorem fdivBits_inf_right (cfg : Config) {a b : F} (ha : isFinite a = true) (hb : isInf b = true) :
    fdivBits cfg a b = zeroF (signBit a != signBit b) := by
  simp [fdivBits, hb, not_nan_of_finite ha, not_nan_of_inf hb]

theorem fdivBits_zero_right (cfg : Config) {a b : F} (ha : isFinite a = true) (haz : isZero a = false)
    (hb : isZero b = true) : fdivBits cfg a b = infF (signBit a != signBit b) := by
  simp [fdivBits, haz, hb, not_nan_of_finite ha, not_nan_of_zero hb]

theorem fdivBits_zero_left (cfg : Config) {a b : F} (ha : isZero a = true) (hb : isFinite b = true)
    (hbz : isZero b = false) : fdivBits cfg a b = zeroF (signBit a != signBit b) := by
  simp [fdivBits, ha, hbz, not_nan_of_zero ha, not_nan_of_finite hb]

theorem fdivBits_isRounded (cfg : Config) {a b : F} (ha : isFinite a = true) (hb : isFinite b = true)
    (haz : isZero a = false) (hbz : isZero b = false) : IsRounded (realValue a / realValue b) (fdivBits cfg a b) := by
  have hop : fdivBits cfg a b = roundUnits (signBit a != signBit b) (magUnits a * 2 ^ 149) (magUnits b) := by
    simp [fdivBits, haz, hbz, not_nan_of_finite ha, not_nan_of_finite hb]
  have hb0 : (magUnits b : ℝ) ≠ 0 := Nat.cast_ne_zero.2 (magUnits_pos hbz).ne'
  have hsb : (if signBit b = true then -1 else 1 : ℝ) ≠ 0 := by split <;> norm_num
  have hsq : (if signBit b = true then -1 else 1 : ℝ) ^ 2 = 1 := by split <;> norm_num
  rw [hop]
  convert roundUnits_isRounded (signBit a != signBit b) (Nat.mul_pos (magUnits_pos haz) (Nat.two_pow_pos 149))
    (magUnits_pos hbz) using 1
  rw [realValue_eq, realValue_eq, sign_mul_sign, zpow_neg]
  push_cast
  field_simp
  rw [hsq]
  ring

theorem inf_and_sign_of_eq_infF {r : F} {neg : Bool} (h : r = infF neg) : isInf r = true ∧ signBit r = neg := by
  rw [h]
  exact ⟨isInf_infF neg, signBit_infF neg⟩

theorem zero_and_sign_of_eq_zeroF {r : F} {neg : Bool} (h : r = zeroF neg) : isZero r = true ∧ signBit r = neg := by
  rw [h]
  exact ⟨isZero_zeroF neg, signBit_zeroF neg⟩

/-- Settles O46, clause by clause. -/
theorem multiplyAndDivideRounded : Obligations.MultiplyAndDivideRounded := fun cfg _ _ =>
  ⟨fun h => ⟨isNaN_fmulBits cfg h, isNaN_fdivBits cfg h⟩,
    isNaN_fmulBits_zero_inf cfg,
    fun h => inf_and_sign_of_eq_infF (fmulBits_inf cfg h),
    fun h => zero_and_sign_of_eq_zeroF (fmulBits_zero cfg h),
    fun ha hb haz hbz => ⟨fmulBits_isRounded cfg ha hb haz hbz, fdivBits_isRounded cfg ha hb haz hbz⟩,
    isNaN_fdivBits_same cfg,
    fun ha hb => inf_and_sign_of_eq_infF (fdivBits_inf_left cfg ha hb),
    fun ha hb => zero_and_sign_of_eq_zeroF (fdivBits_inf_right cfg ha hb),
    fun ha haz hb => inf_and_sign_of_eq_infF (fdivBits_zero_right cfg ha haz hb),
    fun ha hb hbz => zero_and_sign_of_eq_zeroF (fdivBits_zero_left cfg ha hb hbz)⟩

/-! ## Square root and negation (40_numerics R70) -/

theorem isNaN_fsqrtBits (cfg : Config) {a : F} (h : isNaN a = true) : isNaN (fsqrtBits cfg a) = true := by
  rw [fsqrtBits, if_pos h]
  exact isNaN_nanOf cfg .sqrt a a

theorem isNaN_fsqrtBits_neg (cfg : Config) {a : F} (hs : signBit a = true) (hz : isZero a = false) :
    isNaN (fsqrtBits cfg a) = true := by
  simp [fsqrtBits, hs, hz, isNaN_nanOf]

theorem fsqrtBits_zero (cfg : Config) {a : F} (h : isZero a = true) : fsqrtBits cfg a = a := by
  simp [fsqrtBits, h, not_nan_of_zero h]

theorem fsqrtBits_inf (cfg : Config) {a : F} (h : isInf a = true) (hs : signBit a = false) : fsqrtBits cfg a = a := by
  simp [fsqrtBits, h, hs, not_nan_of_inf h]

/-- From 2^24 on, neighbouring magnitudes lie a whole number of units from their midpoint. -/
theorem exists_midpoint {k : Nat} (hk : 2 ^ 24 ≤ k) : ∃ c, unitsOfMag k + unitsOfMag (k + 1) = 2 * c := by
  obtain ⟨e, m, rfl, hm, he⟩ := mag_split k
  obtain ⟨e, rfl⟩ : ∃ e', e = e' + 1 := ⟨e - 1, by omega⟩
  refine ⟨(2 * m + 1) * 2 ^ e, ?_⟩
  rw [unitsOfMag_eq hm.le he, Nat.add_assoc, unitsOfMag_eq (by omega) (by omega)]
  ring

/-- With a midpoint of whole units, half a unit stands for any fraction of a unit. -/
theorem realRoundsUp_iff_of_fraction {k s : Nat} {x : ℝ} (hk : 2 ^ 24 ≤ k) (hlo : (s : ℝ) < x) (hhi : x < s + 1) :
    RealRoundsUp k x ↔ RoundsUp k (2 * s + 1) 2 := by
  obtain ⟨c, hc⟩ := exists_midpoint hk
  have hc' : (unitsOfMag k : ℝ) + unitsOfMag (k + 1) = 2 * c := by exact_mod_cast hc
  have hnat : RoundsUp k (2 * s + 1) 2 ↔ c ≤ s := by
    rw [RoundsUp, hc]
    omega
  rw [hnat, RealRoundsUp, hc']
  constructor
  · intro h
    have : (c : ℝ) < s + 1 := by
      rcases h with h | ⟨h, -⟩ <;> linarith
    exact Nat.lt_succ_iff.1 (by exact_mod_cast this)
  · intro h
    have : (c : ℝ) ≤ s := Nat.cast_le.2 h
    exact .inl (by linarith)

theorem lt_of_lt_unitsOfMag_succ {k s : Nat} (hs : 2 ^ 24 ≤ s) (h : s < unitsOfMag (k + 1)) : 2 ^ 24 ≤ k := by
  by_contra hk
  have := unitsOfMag_strictMono.monotone (show k + 1 ≤ 2 ^ 24 by omega)
  rw [unitsOfMag_two_pow_24] at this
  omega

/-- The integer root with half a unit for the fraction left rounds as the root: the root of 2^149 or more has more than 24
bits, so no midpoint lies between them. -/
theorem isRounded_root {n s : Nat} (hn : 2 ^ 149 ≤ n) (hlo : s * s ≤ n) (hhi : n < (s + 1) * (s + 1)) :
    IsRounded (√(n : ℝ) * (2 : ℝ) ^ (-149 : ℤ)) (roundUnits false (2 * s + (if s * s = n then 0 else 1)) 2) := by
  have hs : 2 ^ 74 ≤ s := by
    by_contra hc
    have : (s + 1) * (s + 1) ≤ 2 ^ 74 * 2 ^ 74 := Nat.mul_le_mul (by omega) (by omega)
    omega
  by_cases hsq : s * s = n
  · have hroot : √(n : ℝ) = s := by
      rw [← hsq, Nat.cast_mul, Real.sqrt_mul_self (Nat.cast_nonneg s)]
    rw [if_pos hsq, hroot]
    simpa using roundUnits_isRounded false (p := 2 * s) (by omega) two_pos
  · have hlo' : (s : ℝ) < √(n : ℝ) := by
      rw [Real.lt_sqrt (Nat.cast_nonneg s), pow_two]
      exact_mod_cast lt_of_le_of_ne hlo hsq
    have hhi' : √(n : ℝ) < s + 1 := by
      rw [Real.sqrt_lt' (by positivity), pow_two]
      exact_mod_cast hhi
    rw [if_neg hsq]
    obtain ⟨k, h1, h2, hchoice⟩ := roundUnits_spec false (p := 2 * s + 1) two_pos
    have hk : 2 ^ 24 ≤ k := lt_of_lt_unitsOfMag_succ (s := s) (by omega) (by omega)
    have hU : (unitsOfMag k : ℝ) ≤ s := by exact_mod_cast (show unitsOfMag k ≤ s by omega)
    have hU' : (s : ℝ) + 1 ≤ unitsOfMag (k + 1) := by exact_mod_cast (show s + 1 ≤ unitsOfMag (k + 1) by omega)
    rw [← realRoundsUp_iff_of_fraction hk hlo' hhi'] at hchoice
    simpa using isRounded_of_neighbours false ((Nat.cast_nonneg s).trans_lt hlo') (hU.trans hlo'.le)
      (hhi'.trans_le hU') hchoice

theorem magUnits_lt {a : F} (h : isFinite a = true) : magUnits a < 2 ^ 277 := by
  rw [← unitsOfMag_infBits]
  exact unitsOfMag_strictMono ((isFinite_iff a).1 h)

/-- The root of n units of 2^-149 is the root of n * 2^149, in units. -/
theorem sqrt_units (n : Nat) :
    √((n : ℝ) * (2 : ℝ) ^ (-149 : ℤ)) = √((n * 2 ^ 149 : ℕ) : ℝ) * (2 : ℝ) ^ (-149 : ℤ) := by
  have hu : (0 : ℝ) ≤ (2 : ℝ) ^ (-149 : ℤ) := by positivity
  conv_rhs => rw [← Real.sqrt_mul_self hu, ← Real.sqrt_mul (Nat.cast_nonneg _)]
  rw [zpow_neg]
  push_cast
  congr 1
  field_simp
  norm_num

theorem fsqrtBits_isRounded (cfg : Config) {a : F} (ha : isFinite a = true) (hs : signBit a = false)
    (hz : isZero a = false) : IsRounded √(realValue a) (fsqrtBits cfg a) := by
  have hpos := magUnits_pos hz
  have hlt := magUnits_lt ha
  obtain ⟨hlo, hhi⟩ := isqrt_spec (n := magUnits a * 2 ^ 149) (by omega)
  rw [realValue_of_sign hs, abs_realValue, sqrt_units]
  simpa [fsqrtBits, hs, hz, not_nan_of_finite ha] using isRounded_root (by omega) hlo hhi

theorem getLsbD_fnegBits (a : F) {k : Nat} (hk : k < 32) :
    (fnegBits a).getLsbD k = if k = 31 then !a.getLsbD 31 else a.getLsbD k := by
  have hmask : ∀ k < 32, (0x80000000#32).getLsbD k = decide (k = 31) := by decide
  rw [fnegBits, BitVec.getLsbD_xor, hmask k hk]
  by_cases h : k = 31 <;> simp [h]

/-- Settles O47, clause by clause. -/
theorem sqrtRoundedAndNegExact : Obligations.SqrtRoundedAndNegExact := fun cfg a =>
  ⟨isNaN_fsqrtBits cfg, isNaN_fsqrtBits_neg cfg, fsqrtBits_zero cfg, fsqrtBits_inf cfg, fsqrtBits_isRounded cfg,
    fun _ => getLsbD_fnegBits a, fun h => (isNaN_fneg a).trans h⟩

end Sys2Proof.Machine
end

section
/-! PROOF. The family of 40_numerics, what follows from the operations: rounding keeps order, doubling and halving are exact,
and FSIN and FCOS have their properties in every configuration (40_numerics R73 to R75, R78). -/

namespace Sys2Proof.Machine

/-! ## Consequences of rounding (40_numerics R67) -/

theorem IsRounded.signBit_iff {r : ℝ} {b : F} (h : IsRounded r b) : signBit b = true ↔ r < 0 := by
  unfold IsRounded at h
  split at h
  · exact h.2
  · exact h.2.1

theorem IsRounded.inf_or_finite {r : ℝ} {b : F} (h : IsRounded r b) : isInf b = true ∨ isFinite b = true := by
  unfold IsRounded at h
  split at h
  · exact .inl h.1
  · exact .inr h.1

theorem IsRounded.inf_of_ge {r : ℝ} {b : F} (h : IsRounded r b) (hr : ((2 : ℝ) ^ 25 - 1) * (2 : ℝ) ^ 103 ≤ |r|) :
    isInf b = true := by
  rw [IsRounded, if_pos hr] at h
  exact h.1

theorem IsRounded.finite_of_lt {r : ℝ} {b : F} (h : IsRounded r b) (hr : |r| < ((2 : ℝ) ^ 25 - 1) * (2 : ℝ) ^ 103) :
    isFinite b = true := by
  rw [IsRounded, if_neg hr.not_ge] at h
  exact h.1

theorem IsRounded.nearest {r : ℝ} {b v : F} (h : IsRounded r b) (hb : isFinite b = true)
    (hv : isFinite v = true) : |realValue b - r| ≤ |realValue v - r| := by
  unfold IsRounded at h
  split at h
  · simp [not_nan_of_finite hb] at h
  · exact (h.2.2 v hv).1

/-- Rounding does not step below a value of F. -/
theorem IsRounded.le_realValue {r : ℝ} {b v : F} (h : IsRounded r b) (hb : isFinite b = true)
    (hv : isFinite v = true) (hle : realValue v ≤ r) : realValue v ≤ realValue b := by
  by_contra hlt
  have hnear := h.nearest hb hv
  rw [abs_of_nonpos (by linarith), abs_of_nonpos (by linarith)] at hnear
  linarith

/-- Rounding does not step above a value of F. -/
theorem IsRounded.realValue_le {r : ℝ} {b v : F} (h : IsRounded r b) (hb : isFinite b = true)
    (hv : isFinite v = true) (hle : r ≤ realValue v) : realValue b ≤ realValue v := by
  by_contra hlt
  have hnear := h.nearest hb hv
  rw [abs_of_nonneg (by linarith), abs_of_nonneg (by linarith)] at hnear
  linarith

/-- A real whose size is the value of some magnitude bits rounds to itself, or overflows. -/
theorem IsRounded.exact_or_inf {neg : Bool} {j : Nat} {r : ℝ} {b : F} (h : IsRounded r b)
    (hr : r = (if neg then -1 else 1) * (unitsOfMag j : ℝ) * (2 : ℝ) ^ (-149 : ℤ)) :
    isInf b = true ∨ (isFinite b = true ∧ realValue b = r) := by
  rcases Nat.lt_or_ge j infBits with hj | hj
  · exact .inr (isRounded_exact h (isFinite_pack hj) (hr ▸ realValue_pack (by unfold infBits at hj; omega)))
  · refine .inl (h.inf_of_ge ?_)
    have hbig : (2 : ℝ) ^ 25 * 2 ^ 252 ≤ unitsOfMag j := by
      rw [← unitsOfMag_infBits_real]
      exact_mod_cast unitsOfMag_strictMono.monotone hj
    have habs : |r| = unitsOfMag j * (2 : ℝ) ^ (-149 : ℤ) := by
      rw [hr, abs_mul, abs_mul, abs_of_nonneg (Nat.cast_nonneg (α := ℝ) _),
        abs_of_pos (by positivity : (0 : ℝ) < (2 : ℝ) ^ (-149 : ℤ))]
      cases neg <;> simp
    rw [habs, threshold_units]
    refine mul_le_mul_of_nonneg_right (le_trans ?_ hbig) (by positivity)
    exact mul_le_mul_of_nonneg_right (by linarith) (by positivity)

/-! ## Doubling and halving (40_numerics R73) -/

theorem realValue_twoF : realValue twoF = 2 := by
  simp only [realValue, show signBit twoF = false by decide, show expField twoF = 128 by decide,
    show fracField twoF = 0 by decide]
  norm_num

theorem infF_signBit {v : F} (h : isInf v = true) : infF (signBit v) = v := by
  rw [infF, ← (isInf_iff v).1 h, pack_self]

theorem zeroF_signBit {v : F} (h : isZero v = true) : zeroF (signBit v) = v := by
  rw [zeroF, ← (isZero_iff v).1 h, pack_self]

/-- Twice a value of magnitude bits is one: the next exponent, or twice a count at exponent 0. -/
theorem exists_unitsOfMag_double (k : Nat) : ∃ j, unitsOfMag j = 2 * unitsOfMag k := by
  obtain ⟨e, m, rfl, hm, he⟩ := mag_split k
  rw [unitsOfMag_eq hm.le he]
  rcases Nat.lt_or_ge m (2 ^ 23) with h | h
  · obtain rfl : e = 0 := by omega
    exact ⟨0 * 2 ^ 23 + 2 * m, by rw [unitsOfMag_eq (by omega) (.inl rfl)]; ring⟩
  · exact ⟨(e + 1) * 2 ^ 23 + m, by rw [unitsOfMag_eq hm.le (.inr h)]; ring⟩

/-- Half a value of magnitude bits is one, from 2^-125 on: the exponent before. -/
theorem exists_unitsOfMag_half {k : Nat} (hk : 2 ^ 24 ≤ k) : ∃ j, unitsOfMag k = 2 * unitsOfMag j := by
  obtain ⟨e, m, rfl, hm, he⟩ := mag_split k
  obtain ⟨e, rfl⟩ : ∃ e', e = e' + 1 := ⟨e - 1, by omega⟩
  refine ⟨e * 2 ^ 23 + m, ?_⟩
  rw [unitsOfMag_eq hm.le he, unitsOfMag_eq hm.le (by omega)]
  ring

theorem fmulBits_two_finite (cfg : Config) {v : F} (hv : isFinite v = true) :
    isInf (fmulBits cfg twoF v) = true ∨
      (isFinite (fmulBits cfg twoF v) = true ∧ realValue (fmulBits cfg twoF v) = 2 * realValue v) := by
  cases hz : isZero v
  · have hround := fmulBits_isRounded cfg (a := twoF) (by decide) hv (by decide) hz
    rw [realValue_twoF] at hround
    obtain ⟨j, hj⟩ := exists_unitsOfMag_double (magBits v)
    refine hround.exact_or_inf (neg := signBit v) (j := j) ?_
    rw [hj, realValue_eq, magUnits]
    push_cast
    ring
  · have hzero := isZero_zeroF (signBit twoF != signBit v)
    rw [fmulBits_zero cfg (.inr ⟨by decide, hz⟩), realValue_of_isZero hzero, realValue_of_isZero hz, mul_zero]
    exact .inr ⟨finite_of_zero hzero, rfl⟩

theorem fmulBits_two_inf (cfg : Config) {v : F} (hv : isInf v = true) : fmulBits cfg twoF v = v := by
  rw [fmulBits_inf cfg (.inr (.inr ⟨by decide, by decide, hv⟩)), show signBit twoF = false by decide, Bool.false_bne,
    infF_signBit hv]

theorem fdivBits_two_zero_or_inf (cfg : Config) {v : F} (h : isZero v = true ∨ isInf v = true) :
    fdivBits cfg v twoF = v := by
  have hsign : (signBit v != signBit twoF) = signBit v := by rw [show signBit twoF = false by decide, Bool.bne_false]
  rcases h with hz | hi
  · rw [fdivBits_zero_left cfg hz (by decide) (by decide), hsign, zeroF_signBit hz]
  · rw [fdivBits_inf_left cfg hi (by decide), hsign, infF_signBit hi]

theorem fdivBits_two_isRounded (cfg : Config) {v : F} (hv : isFinite v = true) (hz : isZero v = false) :
    IsRounded (realValue v / 2) (fdivBits cfg v twoF) := by
  simpa only [realValue_twoF] using fdivBits_isRounded cfg (b := twoF) hv (by decide) hz (by decide)

/-- From 2^-125 on, magnitude bits are 2^24 at least. -/
theorem magBits_ge_of_normal {v : F} (h : (2 : ℝ) ^ (-125 : ℤ) ≤ |realValue v|) : 2 ^ 24 ≤ magBits v := by
  have hsplit : (2 : ℝ) ^ (-125 : ℤ) = 2 ^ 24 * (2 : ℝ) ^ (-149 : ℤ) := by norm_num
  rw [abs_realValue, hsplit, mul_le_mul_iff_left₀ (by positivity)] at h
  rw [← unitsOfMag_strictMono.le_iff_le, unitsOfMag_two_pow_24]
  exact_mod_cast h

theorem fdivBits_two_exact (cfg : Config) {v : F} (hv : isFinite v = true)
    (h : (2 : ℝ) ^ (-125 : ℤ) ≤ |realValue v|) :
    isFinite (fdivBits cfg v twoF) = true ∧ realValue (fdivBits cfg v twoF) = realValue v / 2 := by
  have hk := magBits_ge_of_normal h
  have hz : isZero v = false := by
    rw [Bool.eq_false_iff, Ne, isZero_iff]
    omega
  obtain ⟨j, hj⟩ := exists_unitsOfMag_half hk
  have hjlt : j < infBits := by
    have hle : j ≤ magBits v := unitsOfMag_strictMono.le_iff_le.1 (by omega)
    exact hle.trans_lt ((isFinite_iff v).1 hv)
  refine isRounded_exact (fdivBits_two_isRounded cfg hv hz) (isFinite_pack (neg := signBit v) hjlt) ?_
  rw [realValue_pack (by unfold infBits at hjlt; omega), realValue_eq, magUnits, hj]
  push_cast
  ring

theorem atLeastOneF_iff {v : F} :
    atLeastOneF v = true ↔ isNaN v = false ∧ signBit v = false ∧ magBits oneF ≤ magBits v := by
  simp [atLeastOneF, show oneF.toNat = magBits oneF by decide, and_assoc]

theorem atLeastOneF_of_posInf {v : F} (h : isInf v = true) (hs : signBit v = false) : atLeastOneF v = true := by
  rw [atLeastOneF_iff, (isInf_iff v).1 h]
  exact ⟨(not_nan_of_inf h).1, hs, by decide⟩

theorem atLeastOneF_of_isRounded {r : ℝ} {b : F} (h : IsRounded r b) (hr : 1 ≤ r) : atLeastOneF b = true := by
  have hs : signBit b = false := by
    rw [Bool.eq_false_iff, Ne, h.signBit_iff]
    linarith
  rcases h.inf_or_finite with hi | hf
  · exact atLeastOneF_of_posInf hi hs
  · have hone : realValue oneF ≤ realValue b := h.le_realValue hf (by decide) (realValue_oneF.trans_le hr)
    rw [atLeastOneF_iff, ← abs_realValue_le_iff, ← realValue_of_sign (by decide), ← realValue_of_sign hs]
    exact ⟨(not_nan_of_finite hf).1, hs, hone⟩

theorem nonnegF_iff {v : F} : nonnegF v = true ↔ isNaN v = false ∧ (isZero v = true ∨ signBit v = false) := by
  simp [nonnegF]

theorem atLeastOneF_one_fadd (cfg : Config) {v : F} (h : nonnegF v = true) :
    atLeastOneF (faddBits cfg oneF v) = true := by
  obtain ⟨hnan, hsign⟩ := nonnegF_iff.1 h
  have hfinite : isFinite v = true → atLeastOneF (faddBits cfg oneF v) = true := by
    intro hf
    have hv : 0 ≤ realValue v := realValue_nonneg_iff.2 hsign
    have hround := faddBits_isRounded cfg (a := oneF) (by decide) hf (by rw [realValue_oneF]; positivity)
    exact atLeastOneF_of_isRounded hround (by rw [realValue_oneF]; linarith)
  rcases class_cases hnan with hi | hz | ⟨hf, -⟩
  · have hs : signBit v = false := by simpa [not_nan_of_inf hi] using hsign
    rw [faddBits_inf_right cfg (by decide) hi]
    exact atLeastOneF_of_posInf hi hs
  · exact hfinite (finite_of_zero hz)
  · exact hfinite hf

/-- Settles O48, clause by clause; a half that is not exact is that of a value below 2^-125. -/
theorem exactOperations : Obligations.ExactOperations := by
  intro cfg v N
  refine ⟨fmulBits_two_finite cfg, fmulBits_two_inf cfg, fdivBits_two_zero_or_inf cfg, fdivBits_two_exact cfg,
    fun hf hz => ⟨fdivBits_two_isRounded cfg hf hz, fun hne => ?_⟩, fun _ => realValue_fneg v, atLeastOneF_one_fadd cfg⟩
  by_contra hge
  refine hne (fdivBits_two_exact cfg hf ?_).2
  rw [abs_div, abs_two, not_lt, le_div_iff₀ two_pos] at hge
  calc (2 : ℝ) ^ (-125 : ℤ) = (2 : ℝ) ^ (-126 : ℤ) * 2 := by norm_num
    _ ≤ |realValue v| := hge

/-! ## Sine and cosine in every configuration (40_numerics R74, R75, R78) -/

theorem nan_or_inf_of_not_finite {w : F} (h : isFinite w = false) : (isNaN w || isInf w) = true := by
  cases hn : isNaN w
  · rcases class_cases hn with hi | hz | ⟨hf, -⟩
    · exact hi
    · simp [finite_of_zero hz] at h
    · simp [hf] at h
  · rfl

theorem isNaN_fsinBits (cfg : Config) {w : F} (h : isFinite w = false) : isNaN (fsinBits cfg w) = true := by
  rw [fsinBits, if_pos (nan_or_inf_of_not_finite h)]
  exact isNaN_nanOf cfg .sin w w

theorem isNaN_fcosBits (cfg : Config) {w : F} (h : isFinite w = false) : isNaN (fcosBits cfg w) = true := by
  rw [fcosBits, if_pos (nan_or_inf_of_not_finite h)]
  exact isNaN_nanOf cfg .cos w w

theorem fsinBits_zero (cfg : Config) {w : F} (h : isZero w = true) : fsinBits cfg w = w := by
  simp [fsinBits, h, not_nan_of_zero h]

theorem fcosBits_zero (cfg : Config) {w : F} (h : isZero w = true) : fcosBits cfg w = oneF := by
  simp [fcosBits, h, not_nan_of_zero h]

/-- The pattern of an angle in the range of property T4 (40_numerics R75): no sign, and at most that of `belowPi`. -/
def UpToPi (w : F) : Prop := signBit w = false ∧ magBits w ≤ belowPi.toNat

theorem fsinBits_upToPi (cfg : Config) {w : F} (hf : isFinite w = true) (hz : isZero w = false) (hpi : UpToPi w) :
    fsinBits cfg w = pack ((cfg.sinChoice w).neg && (cfg.sinChoice w).mag.val == 0) (cfg.sinChoice w).mag.val := by
  simp [fsinBits, hz, hpi.1, hpi.2, not_nan_of_finite hf]

theorem fsinBits_beyondPi (cfg : Config) {w : F} (hf : isFinite w = true) (hz : isZero w = false) (hpi : ¬UpToPi w) :
    fsinBits cfg w = pack (cfg.sinChoice w).neg (cfg.sinChoice w).mag.val := by
  have hcond : (!signBit w && decide (magBits w ≤ belowPi.toNat)) = false := by
    rw [Bool.eq_false_iff]
    simpa [UpToPi] using hpi
  simp [fsinBits, hz, hcond, not_nan_of_finite hf]

theorem fcosBits_finite (cfg : Config) {w : F} (hf : isFinite w = true) (hz : isZero w = false) :
    fcosBits cfg w = pack (cfg.cosChoice w).neg (cfg.cosChoice w).mag.val := by
  simp [fcosBits, hz, not_nan_of_finite hf]

/-- Magnitude bits up to those of 1.0 stand for a value from -1 to 1. -/
theorem realValue_bounds_of_magBits {a : F} (h : magBits a ≤ magBits oneF) :
    isFinite a = true ∧ -1 ≤ realValue a ∧ realValue a ≤ 1 := by
  refine ⟨(isFinite_iff a).2 (h.trans_lt (by decide)), abs_le.1 ?_⟩
  rwa [← abs_realValue_le_iff, realValue_oneF, abs_one] at h

theorem magBits_pack_trigChoice (neg : Bool) (t : TrigChoice) : magBits (pack neg t.mag.val) ≤ magBits oneF := by
  have hone : magBits oneF = 1065353216 := by decide
  have := t.mag.isLt
  rw [magBits_pack (by omega), hone]
  omega

theorem magBits_fsinBits (cfg : Config) {w : F} (hf : isFinite w = true) : magBits (fsinBits cfg w) ≤ magBits oneF := by
  cases hz : isZero w
  · by_cases hpi : UpToPi w
    · rw [fsinBits_upToPi cfg hf hz hpi]
      exact magBits_pack_trigChoice _ _
    · rw [fsinBits_beyondPi cfg hf hz hpi]
      exact magBits_pack_trigChoice _ _
  · rw [fsinBits_zero cfg hz, (isZero_iff w).1 hz]
    exact Nat.zero_le _

theorem magBits_fcosBits (cfg : Config) {w : F} (hf : isFinite w = true) : magBits (fcosBits cfg w) ≤ magBits oneF := by
  cases hz : isZero w
  · rw [fcosBits_finite cfg hf hz]
    exact magBits_pack_trigChoice _ _
  · rw [fcosBits_zero cfg hz]

/-- For a non-zero angle, the range of T4 on values is the range on patterns. -/
theorem upToPi_iff {w : F} (hz : isZero w = false) : UpToPi w ↔ 0 ≤ realValue w ∧ realValue w ≤ realValue belowPi := by
  have hbits : belowPi.toNat = magBits belowPi := by decide
  have hle : signBit w = false → (magBits w ≤ belowPi.toNat ↔ realValue w ≤ realValue belowPi) := by
    intro hs
    rw [hbits, ← abs_realValue_le_iff, ← realValue_of_sign hs, ← realValue_of_sign (by decide)]
  rw [UpToPi, realValue_nonneg_iff, hz]
  simpa using hle

/-- In the range of T4 the sign is used on a zero only. -/
theorem realValue_fsinBits_nonneg (cfg : Config) {w : F} (hf : isFinite w = true) (h0 : 0 ≤ realValue w)
    (hpi : realValue w ≤ realValue belowPi) : 0 ≤ realValue (fsinBits cfg w) := by
  cases hz : isZero w
  · have hlt : (cfg.sinChoice w).mag.val < 2 ^ 31 := (cfg.sinChoice w).mag.isLt.trans (by norm_num)
    rw [fsinBits_upToPi cfg hf hz ((upToPi_iff hz).2 ⟨h0, hpi⟩), realValue_nonneg_iff, isZero_iff, magBits_pack hlt,
      signBit_pack hlt]
    by_cases hm : (cfg.sinChoice w).mag.val = 0 <;> simp [hm]
  · rwa [fsinBits_zero cfg hz]

/-- Settles O49, property by property. -/
theorem trigProperties : Obligations.TrigProperties := by
  intro cfg N
  have hpos : isZero 0x00000000#32 = true := by decide
  have hneg : isZero 0x80000000#32 = true := by decide
  refine ⟨⟨fsinBits_zero cfg hpos, fsinBits_zero cfg hneg, fcosBits_zero cfg hpos, fcosBits_zero cfg hneg⟩,
    fun w h => ⟨isNaN_fsinBits cfg h, isNaN_fcosBits cfg h⟩, fun w hf => ?_,
    fun w => realValue_fsinBits_nonneg cfg⟩
  obtain ⟨hsf, hsin⟩ := realValue_bounds_of_magBits (magBits_fsinBits cfg hf)
  exact ⟨hsf, hsin.1, hsin.2, realValue_bounds_of_magBits (magBits_fcosBits cfg hf)⟩

theorem isNaN_fsubBits (cfg : Config) {a b : F} (h : isNaN a = true ∨ isNaN b = true) :
    isNaN (fsubBits cfg a b) = true := by
  cases hb : isNaN b
  · rw [fsubBits_eq_faddBits_fneg cfg a hb]
    exact isNaN_faddBits cfg (.inl (h.resolve_right (by simp [hb])))
  · exact isNaN_fsubBits_right cfg a hb

theorem not_finite_of_nan {a : F} (h : isNaN a = true) : isFinite a = false :=
  Bool.eq_false_iff.2 fun hf => by simp [not_nan_of_finite hf] at h

/-- Settles O50, operation by operation. -/
theorem naNPropagates : Obligations.NaNPropagates := fun cfg a _ =>
  ⟨fun h => ⟨isNaN_faddBits cfg h, isNaN_fsubBits cfg h, isNaN_fmulBits cfg h, isNaN_fdivBits cfg h⟩,
    fun h => ⟨isNaN_fsqrtBits cfg h, (isNaN_fneg a).trans h, isNaN_fsinBits cfg (not_finite_of_nan h),
      isNaN_fcosBits cfg (not_finite_of_nan h)⟩⟩

end Sys2Proof.Machine
end

section
/-! PROOF. The family of 40_numerics, accuracy: every real has a rounding within one unit in the last place, so that the exact
sine and cosine rounded once are a configuration (40_numerics R76, R77). -/

namespace Sys2Proof.Machine

/-! ## Every real has a rounding, accurate to one unit (40_numerics R67, R76) -/

/-- A real count of units lies between the values of two neighbouring magnitudes: those of its floor. -/
theorem exists_neighbours {x : ℝ} (hx : 0 ≤ x) : ∃ k, (unitsOfMag k : ℝ) ≤ x ∧ x < unitsOfMag (k + 1) := by
  obtain ⟨k, hlo, hhi, -⟩ := roundUnits_spec false (p := ⌊x⌋₊) one_pos
  rw [mul_one] at hlo hhi
  refine ⟨k, (Nat.cast_le.2 hlo).trans (Nat.floor_le hx), (Nat.lt_floor_add_one x).trans_le ?_⟩
  exact_mod_cast hhi

/-- A real is its sign times its count of units of 2^-149. -/
theorem sign_mul_units (r : ℝ) :
    (if decide (r < 0) = true then -1 else 1) * (|r| * (2 : ℝ) ^ (149 : ℤ)) * (2 : ℝ) ^ (-149 : ℤ) = r := by
  have hu : (2 : ℝ) ^ (149 : ℤ) * (2 : ℝ) ^ (-149 : ℤ) = 1 := by rw [← zpow_add₀ two_ne_zero]; norm_num
  have hs : (if decide (r < 0) = true then -1 else 1) * |r| = r := by
    rcases lt_or_ge r 0 with h | h
    · rw [if_pos (by simpa using h), abs_of_neg h]
      ring
    · rw [if_neg (by simpa using h), abs_of_nonneg h, one_mul]
  linear_combination (if decide (r < 0) = true then -1 else 1) * |r| * hu + hs

theorem isRounded_zero : IsRounded 0 (zeroF false) := by
  have hv : realValue (zeroF false) = 0 := realValue_of_isZero (isZero_zeroF false)
  rw [IsRounded, if_neg (by norm_num)]
  exact ⟨by decide, by simp, fun v _ => ⟨by simp [hv], fun _ _ => by decide⟩⟩

theorem exists_isRounded (r : ℝ) : ∃ b, IsRounded r b := by
  rcases eq_or_ne r 0 with rfl | hr
  · exact ⟨_, isRounded_zero⟩
  · have hx : 0 < |r| * (2 : ℝ) ^ (149 : ℤ) := mul_pos (abs_pos.2 hr) (by positivity)
    obtain ⟨k, hlo, hhi⟩ := exists_neighbours hx.le
    rw [← sign_mul_units r]
    by_cases hup : RealRoundsUp k (|r| * (2 : ℝ) ^ (149 : ℤ))
    · exact ⟨_, isRounded_of_neighbours _ hx hlo hhi (.inl ⟨hup, rfl⟩)⟩
    · exact ⟨_, isRounded_of_neighbours _ hx hlo hhi (.inr ⟨hup, rfl⟩)⟩

/-- The step from one magnitude to the next is at most the unit of any real between them (40_numerics R76). -/
theorem gap_le_ulpOf {k : Nat} {r : ℝ} (h : (unitsOfMag k : ℝ) * (2 : ℝ) ^ (-149 : ℤ) ≤ |r|) :
    ((unitsOfMag (k + 1) : ℝ) - unitsOfMag k) * (2 : ℝ) ^ (-149 : ℤ) ≤ ulpOf r := by
  obtain ⟨e, m, rfl, hm, he⟩ := mag_split k
  have hgap : (unitsOfMag (e * 2 ^ 23 + m + 1) : ℝ) - unitsOfMag (e * 2 ^ 23 + m) = (2 : ℝ) ^ (e : ℤ) := by
    rw [Nat.add_assoc, unitsOfMag_eq (by omega) (by omega), unitsOfMag_eq hm.le he, zpow_natCast]
    push_cast
    ring
  rw [hgap, ← zpow_add₀ two_ne_zero, ulpOf]
  refine zpow_le_zpow_right₀ one_le_two ?_
  rcases he with rfl | hm'
  · omega
  · have hpow : (2 : ℝ) ^ ((e : ℤ) - 126) ≤ |r| := by
      refine le_trans ?_ h
      have hsplit : (2 : ℝ) ^ ((e : ℤ) - 126) = 2 ^ 23 * (2 : ℝ) ^ (e : ℤ) * (2 : ℝ) ^ (-149 : ℤ) := by
        rw [← zpow_natCast (2 : ℝ) 23, ← zpow_add₀ two_ne_zero, ← zpow_add₀ two_ne_zero]
        congr 1
        push_cast
        ring
      rw [hsplit, unitsOfMag_eq hm.le (.inr hm')]
      refine mul_le_mul_of_nonneg_right ?_ (by positivity)
      push_cast
      exact mul_le_mul_of_nonneg_right (by exact_mod_cast hm') (by positivity)
    have hlog : (e : ℤ) - 126 ≤ Int.log 2 |r| :=
      (Int.zpow_le_iff_le_log one_lt_two ((zpow_pos two_pos _).trans_le hpow)).1 (by exact_mod_cast hpow)
    omega

/-- A value of F within one unit below r, towards zero. -/
theorem exists_near_value {r : ℝ} (hr : |r| < ((2 : ℝ) ^ 25 - 1) * (2 : ℝ) ^ 103) :
    ∃ v, isFinite v = true ∧ |realValue v - r| ≤ ulpOf r := by
  set x := |r| * (2 : ℝ) ^ (149 : ℤ) with hx
  have hu : (0 : ℝ) < (2 : ℝ) ^ (-149 : ℤ) := by positivity
  have hxr : x * (2 : ℝ) ^ (-149 : ℤ) = |r| := by
    rw [hx, mul_assoc, ← zpow_add₀ two_ne_zero]
    norm_num
  obtain ⟨k, hlo, hhi⟩ := exists_neighbours (x := x) (by positivity)
  have hk : k < infBits := by
    refine (chosen_finite ?_ hlo).1
    rw [← hxr, threshold_units] at hr
    exact lt_of_mul_lt_mul_right hr hu.le
  refine ⟨pack (decide (r < 0)) k, isFinite_pack hk, ?_⟩
  have hdist : |realValue (pack (decide (r < 0)) k) - r| = (x - unitsOfMag k) * (2 : ℝ) ^ (-149 : ℤ) := by
    rw [realValue_pack (by unfold infBits at hk; omega)]
    have hsr : (if decide (r < 0) = true then -1 else 1) * x * (2 : ℝ) ^ (-149 : ℤ) = r := sign_mul_units r
    have hsign : |(if decide (r < 0) = true then -1 else 1 : ℝ)| = 1 := by split <;> simp
    calc |(if decide (r < 0) = true then -1 else 1) * (unitsOfMag k : ℝ) * (2 : ℝ) ^ (-149 : ℤ) - r|
        = |(if decide (r < 0) = true then -1 else 1) * ((unitsOfMag k : ℝ) - x) * (2 : ℝ) ^ (-149 : ℤ)| := by
          congr 1
          linear_combination hsr
      _ = (x - unitsOfMag k) * (2 : ℝ) ^ (-149 : ℤ) := by
          rw [abs_mul, abs_mul, hsign, one_mul, abs_of_pos hu, abs_sub_comm, abs_of_nonneg (sub_nonneg.2 hlo)]
  rw [hdist]
  refine le_trans (mul_le_mul_of_nonneg_right ?_ hu.le) (gap_le_ulpOf (k := k) ?_)
  · linarith
  · rw [← hxr]
    exact mul_le_mul_of_nonneg_right hlo hu.le

/-- Rounding is accurate to one unit in the last place. -/
theorem IsRounded.abs_sub_le_ulpOf {r : ℝ} {b : F} (h : IsRounded r b)
    (hr : |r| < ((2 : ℝ) ^ 25 - 1) * (2 : ℝ) ^ 103) : |realValue b - r| ≤ ulpOf r := by
  obtain ⟨v, hv, hnear⟩ := exists_near_value hr
  exact (h.nearest (h.finite_of_lt hr) hv).trans hnear

theorem lt_threshold {r : ℝ} (hr : |r| ≤ 1) : |r| < ((2 : ℝ) ^ 25 - 1) * (2 : ℝ) ^ 103 :=
  hr.trans_lt (by norm_num)

/-- A real from -1 to 1 rounds to a value from -1 to 1. -/
theorem IsRounded.magBits_le_one {r : ℝ} {b : F} (h : IsRounded r b) (hr : |r| ≤ 1) : magBits b ≤ magBits oneF := by
  have hf := h.finite_of_lt (lt_threshold hr)
  obtain ⟨hlo, hhi⟩ := abs_le.1 hr
  have hneg : realValue (fnegBits oneF) = -1 := by rw [realValue_fneg, realValue_oneF]
  have hle := h.realValue_le hf (v := oneF) (by decide) (hhi.trans_eq realValue_oneF.symm)
  have hge := h.le_realValue hf (v := fnegBits oneF) (by decide) (hneg.trans_le hlo)
  rw [← abs_realValue_le_iff, realValue_oneF, abs_one, abs_le]
  exact ⟨hneg.symm.trans_le hge, hle.trans_eq realValue_oneF⟩

/-! ## The reference sine and cosine REF (40_numerics R77) -/

/-- The choice of a configuration that stands for the pattern b, where b is no larger than 1.0. -/
def trigChoiceOf (b : F) : TrigChoice := { neg := signBit b, mag := Fin.ofNat 1065353217 (magBits b) }

theorem trigChoiceOf_mag {b : F} (h : magBits b ≤ magBits oneF) : (trigChoiceOf b).mag.val = magBits b := by
  have hone : magBits oneF = 1065353216 := by decide
  exact Nat.mod_eq_of_lt (by omega)

theorem pack_trigChoiceOf {b : F} (h : magBits b ≤ magBits oneF) :
    pack (trigChoiceOf b).neg (trigChoiceOf b).mag.val = b := by
  rw [trigChoiceOf_mag h]
  exact pack_self b

/-- `round(r)` (40_numerics R67). -/
noncomputable def roundReal (r : ℝ) : F := (exists_isRounded r).choose

theorem isRounded_roundReal (r : ℝ) : IsRounded r (roundReal r) := (exists_isRounded r).choose_spec

/-- REF: the exact sine and cosine rounded once, with TRIG_ULP = 1 (40_numerics R77). -/
noncomputable def exactConfig : Config :=
  { (default : Config) with
    sinChoice := fun w => trigChoiceOf (roundReal (Real.sin (realValue w)))
    cosChoice := fun w => trigChoiceOf (roundReal (Real.cos (realValue w)))
    trigUlp := 1 }

theorem realValue_belowPi_lt : realValue belowPi < Real.pi := by
  have hval : realValue belowPi = (2 ^ 23 + 4788186) * (2 : ℝ) ^ (-22 : ℤ) := by
    simp only [realValue, show signBit belowPi = false by decide, show expField belowPi = 128 by decide,
      show fracField belowPi = 4788186 by decide]
    norm_num
  rw [hval]
  exact lt_trans (by norm_num) Real.pi_gt_d20

/-- Below pi the sine is not negative, so that T4 leaves the rounded sine as it is. -/
theorem fsinBits_exactConfig {w : F} (hf : isFinite w = true) (hz : isZero w = false) :
    fsinBits exactConfig w = roundReal (Real.sin (realValue w)) := by
  have hround := isRounded_roundReal (Real.sin (realValue w))
  have hpack := pack_trigChoiceOf (hround.magBits_le_one (Real.abs_sin_le_one _))
  by_cases hpi : UpToPi w
  · have hpos : 0 ≤ Real.sin (realValue w) := by
      obtain ⟨h0, hle⟩ := (upToPi_iff hz).1 hpi
      exact Real.sin_nonneg_of_nonneg_of_le_pi h0 (hle.trans realValue_belowPi_lt.le)
    have hneg : (exactConfig.sinChoice w).neg = false := by
      rw [Bool.eq_false_iff]
      exact fun h => hpos.not_gt (hround.signBit_iff.1 h)
    rw [fsinBits_upToPi _ hf hz hpi, hneg, Bool.false_and, ← hneg]
    exact hpack
  · rw [fsinBits_beyondPi _ hf hz hpi]
    exact hpack

theorem fcosBits_exactConfig {w : F} (hf : isFinite w = true) (hz : isZero w = false) :
    fcosBits exactConfig w = roundReal (Real.cos (realValue w)) := by
  rw [fcosBits_finite _ hf hz]
  exact pack_trigChoiceOf ((isRounded_roundReal _).magBits_le_one (Real.abs_cos_le_one _))

theorem ulpOf_nonneg (y : ℝ) : 0 ≤ ulpOf y := by
  unfold ulpOf
  positivity

/-- REF has property T5: exact at the zeros, accurate as rounding is elsewhere. -/
theorem exactConfig_accurate : exactConfig.Accurate := by
  intro w hf _
  rw [show ((exactConfig.trigUlp : ℚ) : ℝ) = 1 from Rat.cast_one, one_mul, one_mul]
  change |realValue (fsinBits exactConfig w) - _| ≤ _ ∧ |realValue (fcosBits exactConfig w) - _| ≤ _
  cases hz : isZero w
  · rw [fsinBits_exactConfig hf hz, fcosBits_exactConfig hf hz]
    exact ⟨(isRounded_roundReal _).abs_sub_le_ulpOf (lt_threshold (Real.abs_sin_le_one _)),
      (isRounded_roundReal _).abs_sub_le_ulpOf (lt_threshold (Real.abs_cos_le_one _))⟩
  · rw [fsinBits_zero _ hz, fcosBits_zero _ hz, realValue_of_isZero hz, realValue_oneF, Real.sin_zero, Real.cos_zero,
      sub_self, sub_self, abs_zero]
    exact ⟨ulpOf_nonneg 0, ulpOf_nonneg 1⟩

/-- Settles O57, by the configuration that chooses the rounded sine and cosine. -/
theorem referenceInstanceExists : Obligations.ReferenceInstanceExists := by
  refine ⟨exactConfig, rfl, exactConfig_accurate, fun w hf hz => ⟨?_, ?_⟩⟩
  · change IsRounded _ (fsinBits exactConfig w)
    rw [fsinBits_exactConfig hf hz]
    exact isRounded_roundReal _
  · change IsRounded _ (fcosBits exactConfig w)
    rw [fcosBits_exactConfig hf hz]
    exact isRounded_roundReal _

/-- Settles O56: the block's configuration is a legal one, which has property T5 (a unit is never below 2^-149: log
entry 5). -/
theorem sineAndCosineAccurate : Obligations.SineAndCosineAccurate := Config.legal.accurate

end Sys2Proof.Machine
end

section
/-! PROOF. The family of 41_config_ops: the count INIT refuses, and what INIT leaves unchanged (41_config_ops R85,
60_exceptions R125, R126, R131). -/

namespace Sys2Proof.Machine

/-- Settles O11: the count does not fit, and the answer is that of CHAN_COUNT. -/
theorem initBeyondStorageFaults : Obligations.InitBeyondStorageFaults := by
  intro n s hf hn
  have hword : rspWord (.err (causeCode .chanCount)) = 0xF0000000004#44 := by decide
  exact (exec_init_tooMany hf (countFits_false.2 hn)).trans (raiseFault_eq s hword)

/-- The registers no INIT writes, whichever way it answers (41_config_ops R85). -/
theorem Answers.init_keeps {n : Nat} {s t : State} (ha : Answers s (.init n) t) :
    t.coef = s.coef ∧ t.cv = s.cv ∧ t.cmdIn = s.cmdIn ∧ t.resets = s.resets := by
  cases ha with
  | faulted | tooMany | established => exact ⟨rfl, rfl, rfl, rfl⟩
  | designed _ ft fs freq gain q hi => exact absurd hi (init_ne_beginInstr n ft fs freq gain q)

/-- INIT meets the fault state (60_exceptions R125), raises CHAN_COUNT (R131), or keeps FAULT = 0 and FCODE. -/
theorem Answers.init_fault_cases {n : Nat} {s t : State} (ha : Answers s (.init n) t) :
    (s.fault = true ∧ t.fault = true ∧ t.fcode = s.fcode ∧ t.nch = s.nch ∧ t.hist = s.hist) ∨
    (s.fault = false ∧ nchMax s < n ∧ t.fault = true ∧ t.nch = s.nch ∧ t.hist = s.hist) ∨
    (s.fault = false ∧ n ≤ nchMax s ∧ t.fault = false ∧ t.fcode = s.fcode) := by
  cases ha with
  | faulted _ hf => exact .inl ⟨hf, hf, rfl, rfl, rfl⟩
  | tooMany _ hf hn => exact .inr (.inl ⟨hf, countFits_false.1 hn, rfl, rfl, rfl⟩)
  | established _ hf hn => exact .inr (.inr ⟨hf, countFits_true.1 hn, hf, rfl⟩)
  | designed _ ft fs freq gain q hi => exact absurd hi (init_ne_beginInstr n ft fs freq gain q)

/-- Settles O26: the registers no INIT writes, then FAULT, FCODE, NCH and the history for each way INIT can answer. -/
theorem initFrame : Obligations.InitFrame := by
  intro n s t h
  have ha := answers_of_exec h
  obtain ⟨hcoef, hcv, hin, hresets⟩ := ha.init_keeps
  refine ⟨hcoef, hcv, hin, hresets, ha.nchMax_eq, ?_⟩
  obtain ⟨hs, ht, hcode, hnch, hhist⟩ | ⟨hs, hn, ht, hnch, hhist⟩ | ⟨hs, hn, ht, hcode⟩ := ha.init_fault_cases
  · exact ⟨fun _ => hcode, fun _ => ⟨hnch, hhist⟩, fun _ => ⟨ht, hcode⟩, fun _ => ht.trans hs.symm⟩
  · exact ⟨by simp [ht], fun _ => ⟨hnch, hhist⟩, by simp [hs], fun hle => absurd hle hn.not_ge⟩
  · exact ⟨fun _ => hcode, by simp [ht], by simp [hs], fun _ => ht.trans hs.symm⟩

end Sys2Proof.Machine
end

section
/-! PROOF. The family of 42_design_ops, the commands: what a BEGIN loads and what it leaves unchanged, and that it reads
nothing of the state (42_design_ops R90 to R96, R102, R103; 60_exceptions R125). -/

namespace Sys2Proof.Machine

/-! ## What a BEGIN leaves unchanged (42_design_ops R91) -/

/-- The registers no BEGIN writes, in the fault state COEF and CV among them. -/
theorem Answers.begin_keeps {ft : FilterType} {fs freq gain q : F} {s t : State}
    (ha : Answers s (beginInstr ft fs freq gain q) t) :
    t.nch = s.nch ∧ t.hist = s.hist ∧ t.fault = s.fault ∧ t.fcode = s.fcode ∧ t.cmdIn = s.cmdIn ∧
      t.resets = s.resets ∧ (s.fault = true → t.coef = s.coef ∧ t.cv = s.cv) := by
  generalize hi : beginInstr ft fs freq gain q = i at ha
  cases ha with
  | faulted => exact ⟨rfl, rfl, rfl, rfl, rfl, rfl, fun _ => ⟨rfl, rfl⟩⟩
  | designed _ _ _ _ _ _ _ hf => exact ⟨rfl, rfl, rfl, rfl, rfl, rfl, fun h => absurd (hf.symm.trans h) nofun⟩
  | tooMany n | established n => exact absurd hi.symm (init_ne_beginInstr n ft fs freq gain q)
  | outOfRange c x | noCoef c x | filtered c x => exact absurd hi.symm (smp_ne_beginInstr c x ft fs freq gain q)

/-- Settles O27: each of the five commands is the BEGIN of its filter type. -/
theorem beginFrame : Obligations.BeginFrame := by
  intro i fs freq gain q s t hi h
  obtain ⟨ft, rfl⟩ : ∃ ft, i = beginInstr ft fs freq gain q := by
    rcases hi with hi | hi | hi | hi | hi
    · exact ⟨.peak, hi⟩
    · exact ⟨.highPass, hi⟩
    · exact ⟨.lowPass, hi⟩
    · exact ⟨.lowShelf, hi⟩
    · exact ⟨.highShelf, hi⟩
  exact (answers_of_exec h).begin_keeps

/-! ## What a BEGIN loads (42_design_ops R90 to R96, R103) -/

/-- With FAULT = 0 the step on a word of a BEGIN loads its design and sets CV. -/
theorem step_begin_loads {s t : State} {w : CmdWord} {rest : List HostInput} {ft : FilterType} {fs freq gain q : F}
    (hd : decode w = .ok (beginInstr ft fs freq gain q)) (hc : s.cmdIn = .command w :: rest) (hf : s.fault = false)
    (h : step s = .next t) : t.coef = design machineNum ft fs freq gain q ∧ t.cv = true := by
  have hlive : (setInputs rest s).fault = false := hf
  rw [step_command_ok hc hd, exec_begin_live _ _ _ _ _ hlive] at h
  cases h
  exact ⟨rfl, rfl⟩

/-- Settles O34: both states hold the one design of the word's operands. -/
theorem equalBeginWordsEqualCoef : Obligations.EqualBeginWordsEqualCoef := by
  intro s s' t t' w rest rest' ft fs freq gain q hd hc hc' hf hf' h h'
  obtain ⟨hcoef, hcv⟩ := step_begin_loads hd hc hf h
  obtain ⟨hcoef', hcv'⟩ := step_begin_loads hd hc' hf' h'
  exact ⟨hcoef.trans hcoef'.symm, hcv, hcv'⟩

/-- What a BEGIN leaves, in full, where k is its design written out. -/
theorem exec_begin_loads (ft : FilterType) {fs freq gain q : F} {s : State} {k : Coef} (hf : s.fault = false)
    (hk : design machineNum ft fs freq gain q = k) :
    exec (beginInstr ft fs freq gain q) s =
      .next { s with coef := k, cv := true, rspOut := s.rspOut ++ [0x10000000000#44] } := by
  have hack : rspWord .ack = 0x10000000000#44 := by decide
  rw [exec_begin_live ft fs freq gain q hf, hk, ← hack]
  rfl

/-- Settles O16: the design of Peak is the one R92 spells out. -/
theorem beginPeakLoadsDesign : Obligations.BeginPeakLoadsDesign :=
  fun _ _ _ _ _ hf => exec_begin_loads .peak hf rfl

/-- Settles O17: the design of HighPass is the one R93 spells out. -/
theorem beginHpLoadsDesign : Obligations.BeginHpLoadsDesign :=
  fun _ _ _ _ _ hf => exec_begin_loads .highPass hf rfl

/-- Settles O18: the design of LowPass is the one R94 spells out. -/
theorem beginLpLoadsDesign : Obligations.BeginLpLoadsDesign :=
  fun _ _ _ _ _ hf => exec_begin_loads .lowPass hf rfl

/-- Settles O19: the design of LowShelf is the one R95 spells out. -/
theorem beginLsLoadsDesign : Obligations.BeginLsLoadsDesign :=
  fun _ _ _ _ _ hf => exec_begin_loads .lowShelf hf rfl

/-- Settles O20: the design of HighShelf is the one R96 spells out. -/
theorem beginHsLoadsDesign : Obligations.BeginHsLoadsDesign :=
  fun _ _ _ _ _ hf => exec_begin_loads .highShelf hf rfl

/-- Settles O37: the pass shapes compute A0, A1 and A2 by the same operations and read no gain; Peak has their A1. -/
theorem passShapesShareDenominator : Obligations.PassShapesShareDenominator :=
  fun _ _ _ _ _ _ => ⟨rfl, rfl, rfl, rfl, rfl, rfl⟩

end Sys2Proof.Machine
end

section
/-! PROOF. The family of 42_design_ops, the values: the bound on A0 and the designs at gain 1.0, from operations whose exact
result F has (42_design_ops R100, R101; 40_numerics R68 to R70, R73). -/

namespace Sys2Proof.Machine

/-! ## The record's operations (40_numerics R65) -/

@[simp] theorem binary32_fadd (cfg : Config) : (binary32 cfg).fadd = faddBits cfg := rfl
@[simp] theorem binary32_fsub (cfg : Config) : (binary32 cfg).fsub = fsubBits cfg := rfl
@[simp] theorem binary32_fmul (cfg : Config) : (binary32 cfg).fmul = fmulBits cfg := rfl
@[simp] theorem binary32_fdiv (cfg : Config) : (binary32 cfg).fdiv = fdivBits cfg := rfl
@[simp] theorem binary32_fsqrt (cfg : Config) : (binary32 cfg).fsqrt = fsqrtBits cfg := rfl
@[simp] theorem binary32_fneg (cfg : Config) : (binary32 cfg).fneg = fnegBits := rfl
@[simp] theorem binary32_one (cfg : Config) : (binary32 cfg).one = oneF := rfl
@[simp] theorem binary32_two (cfg : Config) : (binary32 cfg).two = twoF := rfl

/-! ## Operations whose exact result is a value of F (40_numerics R67 to R70) -/

/-- Values other than zero have one pattern each (40_numerics R66). -/
theorem eq_of_realValue_eq {a b : F} (hz : isZero b = false) (h : realValue a = realValue b) : a = b := by
  have hmag : magBits a = magBits b :=
    le_antisymm (abs_realValue_le_iff.1 (by rw [h])) (abs_realValue_le_iff.1 (by rw [h]))
  have hza : isZero a = false := by rw [Bool.eq_false_iff, Ne, isZero_iff, hmag, ← isZero_iff, hz]; decide
  have hsign : signBit a = false ↔ signBit b = false := by
    simpa [realValue_nonneg_iff, hz, hza] using congrArg (fun r : ℝ => 0 ≤ r) h
  refine eq_of_sign_mag ?_ hmag
  cases hb : signBit b
  · exact hsign.2 hb
  · simpa [hb] using hsign

/-- Finite patterns of one value (40_numerics R66). -/
theorem sameValue_of_realValue_eq {a b : F} (ha : isFinite a = true) (hb : isFinite b = true)
    (h : realValue a = realValue b) : SameValue a b := by
  refine ⟨(not_nan_of_finite ha).1, (not_nan_of_finite hb).1, ?_⟩
  cases hz : isZero b
  · exact .inl (eq_of_realValue_eq hz h)
  · rw [realValue_of_isZero hz, realValue_eq_zero_iff] at h
    exact .inr ⟨h, rfl⟩

theorem sameValue_refl {a : F} (h : isNaN a = false) : SameValue a a := ⟨h, h, .inl rfl⟩

/-- A value of F other than zero rounds to its own pattern. -/
theorem IsRounded.eq_self {b v : F} (h : IsRounded (realValue v) b) (hv : isFinite v = true) (hz : isZero v = false) :
    b = v :=
  eq_of_realValue_eq hz (isRounded_exact h hv rfl).2

/-- A sum that F has is exact. -/
theorem faddBits_exact (cfg : Config) {a b v : F} (ha : isFinite a = true) (hb : isFinite b = true)
    (hv : isFinite v = true) (h : realValue v = realValue a + realValue b) :
    isFinite (faddBits cfg a b) = true ∧ realValue (faddBits cfg a b) = realValue a + realValue b := by
  by_cases hr : realValue a + realValue b = 0
  · rw [hr, faddBits_of_sum_zero cfg ha hb hr, realValue_eq_zero_iff]
    split <;> decide
  · exact isRounded_exact (faddBits_isRounded cfg ha hb hr) hv h

/-- A product that F has is exact. -/
theorem fmulBits_exact (cfg : Config) {a b v : F} (ha : isFinite a = true) (hb : isFinite b = true)
    (hv : isFinite v = true) (h : realValue v = realValue a * realValue b) :
    isFinite (fmulBits cfg a b) = true ∧ realValue (fmulBits cfg a b) = realValue a * realValue b := by
  by_cases hz : isZero a = true ∨ isZero b = true
  · have hzero : isZero (fmulBits cfg a b) = true := by
      rw [fmulBits_zero cfg (hz.imp (⟨·, hb⟩) (⟨ha, ·⟩))]
      exact isZero_zeroF _
    refine ⟨finite_of_zero hzero, ?_⟩
    rw [realValue_of_isZero hzero, eq_comm, mul_eq_zero]
    exact hz.imp realValue_of_isZero realValue_of_isZero
  · simp only [not_or, Bool.not_eq_true] at hz
    exact isRounded_exact (fmulBits_isRounded cfg ha hb hz.1 hz.2) hv h

/-- Adding a zero leaves a value other than zero (40_numerics R68). -/
theorem faddBits_zero_right (cfg : Config) {a b : F} (ha : isFinite a = true) (haz : isZero a = false)
    (hb : isZero b = true) : faddBits cfg a b = a := by
  refine eq_of_realValue_eq haz ?_
  have hb0 := realValue_of_isZero hb
  rw [(faddBits_exact cfg ha (finite_of_zero hb) ha (by rw [hb0, add_zero])).2, hb0, add_zero]

theorem fsubBits_zero_right (cfg : Config) {a b : F} (ha : isFinite a = true) (haz : isZero a = false)
    (hb : isZero b = true) : fsubBits cfg a b = a := by
  rw [fsubBits_eq_faddBits_fneg cfg a (not_nan_of_zero hb).1]
  exact faddBits_zero_right cfg ha haz ((isZero_fneg b).trans hb)

/-! ## The constant 1.0 (40_numerics R69, R70, R79) -/

theorem signBit_oneF : signBit oneF = false := by decide

theorem oneF_fmulBits (cfg : Config) {v : F} (h : isNaN v = false) : fmulBits cfg oneF v = v := by
  rcases class_cases h with hi | hz | ⟨hf, hz⟩
  · rw [fmulBits_inf cfg (.inr (.inr ⟨by decide, by decide, hi⟩)), signBit_oneF, Bool.false_bne, infF_signBit hi]
  · rw [fmulBits_zero cfg (.inr ⟨by decide, hz⟩), signBit_oneF, Bool.false_bne, zeroF_signBit hz]
  · have hround := fmulBits_isRounded cfg (a := oneF) (by decide) hf (by decide) hz
    rw [realValue_oneF, one_mul] at hround
    exact hround.eq_self hf hz

theorem fmulBits_oneF (cfg : Config) {v : F} (h : isNaN v = false) : fmulBits cfg v oneF = v := by
  rcases class_cases h with hi | hz | ⟨hf, hz⟩
  · rw [fmulBits_inf cfg (.inr (.inl ⟨hi, by decide, by decide⟩)), signBit_oneF, Bool.bne_false, infF_signBit hi]
  · rw [fmulBits_zero cfg (.inl ⟨hz, by decide⟩), signBit_oneF, Bool.bne_false, zeroF_signBit hz]
  · have hround := fmulBits_isRounded cfg (b := oneF) hf (by decide) hz (by decide)
    rw [realValue_oneF, mul_one] at hround
    exact hround.eq_self hf hz

theorem fdivBits_oneF (cfg : Config) {v : F} (h : isNaN v = false) : fdivBits cfg v oneF = v := by
  rcases class_cases h with hi | hz | ⟨hf, hz⟩
  · rw [fdivBits_inf_left cfg hi (by decide), signBit_oneF, Bool.bne_false, infF_signBit hi]
  · rw [fdivBits_zero_left cfg hz (by decide) (by decide), signBit_oneF, Bool.bne_false, zeroF_signBit hz]
  · have hround := fdivBits_isRounded cfg (b := oneF) hf (by decide) hz (by decide)
    rw [realValue_oneF, div_one] at hround
    exact hround.eq_self hf hz

theorem fsqrtBits_oneF (cfg : Config) : fsqrtBits cfg oneF = oneF := by
  have hround := fsqrtBits_isRounded cfg (a := oneF) (by decide) (by decide) (by decide)
  rw [realValue_oneF, Real.sqrt_one, ← realValue_oneF] at hround
  exact hround.eq_self (by decide) (by decide)

/-- `A + 1` at A = 1.0. -/
theorem oneF_faddBits_oneF (cfg : Config) : faddBits cfg oneF oneF = twoF := by
  have hsum : realValue oneF + realValue oneF = realValue twoF := by
    rw [realValue_oneF, realValue_twoF]
    norm_num
  refine eq_of_realValue_eq (by decide) ?_
  exact (faddBits_exact cfg (v := twoF) (by decide) (by decide) (by decide) hsum.symm).2.trans hsum

/-- `A - 1` at A = 1.0 is the zero `zeroF false`, +0. -/
theorem oneF_fsubBits_oneF (cfg : Config) : fsubBits cfg oneF oneF = zeroF false := by
  have hsum : realValue oneF + realValue (fnegBits oneF) = 0 := by rw [realValue_fneg, add_neg_cancel]
  rw [fsubBits_eq_faddBits_fneg cfg oneF (by decide), faddBits_of_sum_zero cfg (by decide) (by decide) hsum,
    if_neg (by decide)]
  decide

/-! ## Peak at gain 1.0 (42_design_ops R101) -/

/-- At A = √1.0 the product and the quotient of R92 are both alpha itself. -/
theorem fmulBits_fsqrtBits_oneF (cfg : Config) {v : F} (h : isNaN v = false) :
    fmulBits cfg v (fsqrtBits cfg oneF) = fdivBits cfg v (fsqrtBits cfg oneF) := by
  rw [fsqrtBits_oneF, fmulBits_oneF cfg h, fdivBits_oneF cfg h]

/-- Settles O51: b is computed from alpha times A as a is from alpha divided by A. -/
theorem unityGainPeakBitEqual : Obligations.UnityGainPeakBitEqual := by
  intro cfg fs freq q N k halpha
  have hsame := fmulBits_fsqrtBits_oneF cfg halpha
  have hone : 0x3F800000#32 = oneF := rfl
  simp only [k, N, design, designPeak, binary32_fmul, binary32_fdiv, binary32_fsqrt, hone, hsame, and_self]

/-! ## Signs and ranges of results (40_numerics R68 to R70, R73) -/

theorem nonnegF_of_sign {v : F} (hn : isNaN v = false) (hs : signBit v = false) : nonnegF v = true :=
  nonnegF_iff.2 ⟨hn, .inr hs⟩

theorem nonnegF_of_zero {v : F} (hz : isZero v = true) : nonnegF v = true :=
  nonnegF_iff.2 ⟨(not_nan_of_zero hz).1, .inl hz⟩

theorem positiveF_iff {v : F} : positiveF v = true ↔ isNaN v = false ∧ isZero v = false ∧ signBit v = false := by
  simp [positiveF, and_assoc]

theorem IsRounded.not_nan {r : ℝ} {b : F} (h : IsRounded r b) : isNaN b = false :=
  h.inf_or_finite.elim (fun hi => (not_nan_of_inf hi).1) fun hf => (not_nan_of_finite hf).1

theorem IsRounded.nonnegF_of_nonneg {r : ℝ} {b : F} (h : IsRounded r b) (hr : 0 ≤ r) : nonnegF b = true := by
  refine nonnegF_of_sign h.not_nan ?_
  rw [Bool.eq_false_iff, Ne, h.signBit_iff]
  exact hr.not_gt

/-- A real at or above a positive value of F does not round to zero. -/
theorem IsRounded.positiveF_of_le {r : ℝ} {b v : F} (h : IsRounded r b) (hv : isFinite v = true) (hpos : 0 < realValue v)
    (hr : realValue v ≤ r) : positiveF b = true := by
  obtain ⟨hnan, hsign⟩ := nonnegF_iff.1 (h.nonnegF_of_nonneg (hpos.le.trans hr))
  have hz : isZero b = false := by
    rw [Bool.eq_false_iff]
    intro hz
    have hle := h.le_realValue (finite_of_zero hz) hv hr
    rw [realValue_of_isZero hz] at hle
    exact hle.not_gt hpos
  exact positiveF_iff.2 ⟨hnan, hz, hsign.resolve_left (by simp [hz])⟩

theorem realValue_pos {v : F} (h : positiveF v = true) : 0 < realValue v := by
  obtain ⟨-, hz, hs⟩ := positiveF_iff.1 h
  refine lt_of_le_of_ne (realValue_nonneg_iff.2 (.inr hs)) fun h0 => ?_
  simp [realValue_eq_zero_iff.1 h0.symm] at hz

/-- Every finite value lies below the overflow threshold, since it rounds to itself. -/
theorem abs_realValue_lt_threshold {v : F} (hv : isFinite v = true) :
    |realValue v| < ((2 : ℝ) ^ 25 - 1) * (2 : ℝ) ^ 103 := by
  obtain ⟨b, hb⟩ := exists_isRounded (realValue v)
  by_contra hge
  have hinf := hb.inf_of_ge (not_lt.1 hge)
  have hfin := (isRounded_exact hb hv rfl).1
  exact absurd hinf (by simp [not_nan_of_finite hfin])

theorem IsRounded.finite_of_le {r : ℝ} {b v : F} (h : IsRounded r b) (hv : isFinite v = true)
    (hr : |r| ≤ |realValue v|) : isFinite b = true :=
  h.finite_of_lt (hr.trans_lt (abs_realValue_lt_threshold hv))

theorem inf_or_finite {v : F} (h : isNaN v = false) : isInf v = true ∨ isFinite v = true := by
  rcases class_cases h with hi | hz | ⟨hf, -⟩
  · exact .inl hi
  · exact .inr (finite_of_zero hz)
  · exact .inr hf

theorem not_nan_faddBits (cfg : Config) {a b : F} (ha : isFinite a = true) (hb : isNaN b = false) :
    isNaN (faddBits cfg a b) = false := by
  rcases inf_or_finite hb with hi | hf
  · rw [faddBits_inf_right cfg ha hi, hb]
  · by_cases hr : realValue a + realValue b = 0
    · rw [faddBits_of_sum_zero cfg ha hf hr]
      split <;> decide
    · exact (faddBits_isRounded cfg ha hf hr).not_nan

theorem not_nan_fsubBits (cfg : Config) {a b : F} (ha : isFinite a = true) (hb : isNaN b = false) :
    isNaN (fsubBits cfg a b) = false := by
  rw [fsubBits_eq_faddBits_fneg cfg a hb]
  exact not_nan_faddBits cfg ha ((isNaN_fneg b).trans hb)

theorem not_nan_fmulBits_two (cfg : Config) {v : F} (h : isNaN v = false) : isNaN (fmulBits cfg twoF v) = false := by
  rcases inf_or_finite h with hi | hf
  · rw [fmulBits_two_inf cfg hi, h]
  · exact (fmulBits_two_finite cfg hf).elim (fun hi => (not_nan_of_inf hi).1) fun hf => (not_nan_of_finite hf.1).1

/-- Up to 2 in size, doubling stays clear of overflow. -/
theorem fmulBits_two_exact (cfg : Config) {v : F} (hv : isFinite v = true) (h : |realValue v| ≤ 2) :
    isFinite (fmulBits cfg twoF v) = true ∧ realValue (fmulBits cfg twoF v) = 2 * realValue v := by
  refine (fmulBits_two_finite cfg hv).resolve_left fun hi => ?_
  have hfin : isFinite (fmulBits cfg twoF v) = true := by
    cases hz : isZero v
    · have hround := fmulBits_isRounded cfg (a := twoF) (by decide) hv (by decide) hz
      refine hround.finite_of_lt ?_
      rw [realValue_twoF, abs_mul, abs_two]
      calc 2 * |realValue v| ≤ 2 * 2 := by linarith
        _ < ((2 : ℝ) ^ 25 - 1) * (2 : ℝ) ^ 103 := by norm_num
    · rw [fmulBits_zero cfg (.inr ⟨by decide, hz⟩)]
      exact finite_of_zero (isZero_zeroF _)
  exact absurd hi (by simp [not_nan_of_finite hfin])

theorem nonnegF_fsqrtBits (cfg : Config) {v : F} (h : nonnegF v = true) : nonnegF (fsqrtBits cfg v) = true := by
  obtain ⟨hnan, hsign⟩ := nonnegF_iff.1 h
  rcases class_cases hnan with hi | hz | ⟨hf, hz⟩
  · rwa [fsqrtBits_inf cfg hi (hsign.resolve_left (by simp [not_nan_of_inf hi]))]
  · rwa [fsqrtBits_zero cfg hz]
  · exact (fsqrtBits_isRounded cfg hf (hsign.resolve_left (by simp [hz])) hz).nonnegF_of_nonneg (Real.sqrt_nonneg _)

/-- The root of a finite positive value lies between it and 1.0, so it neither overflows nor vanishes. -/
theorem fsqrtBits_positive (cfg : Config) {v : F} (h : positiveF v = true) (hf : isFinite v = true) :
    positiveF (fsqrtBits cfg v) = true ∧ isFinite (fsqrtBits cfg v) = true := by
  have hpos := realValue_pos h
  obtain ⟨-, hz, hs⟩ := positiveF_iff.1 h
  have hround := fsqrtBits_isRounded cfg hf hs hz
  have hroot := Real.sqrt_nonneg (realValue v)
  rcases le_total (realValue v) 1 with hle | hge
  · have hlo : realValue v ≤ √(realValue v) := Real.le_sqrt_of_sq_le (by nlinarith)
    have hhi : √(realValue v) ≤ 1 := Real.sqrt_le_one.2 hle
    refine ⟨hround.positiveF_of_le hf hpos hlo, hround.finite_of_le (v := oneF) (by decide) ?_⟩
    rwa [realValue_oneF, abs_one, abs_of_nonneg hroot]
  · have hlo : realValue oneF ≤ √(realValue v) := realValue_oneF.trans_le (Real.one_le_sqrt.2 hge)
    have hhi : √(realValue v) ≤ realValue v := Real.sqrt_le_iff.2 ⟨hpos.le, by nlinarith⟩
    refine ⟨hround.positiveF_of_le (by decide) (by rw [realValue_oneF]; exact one_pos) hlo, hround.finite_of_le hf ?_⟩
    rwa [abs_of_nonneg hroot, abs_of_pos hpos]

theorem positiveF_fmulBits_two (cfg : Config) {v : F} (h : positiveF v = true) :
    positiveF (fmulBits cfg twoF v) = true := by
  obtain ⟨hnan, hz, -⟩ := positiveF_iff.1 h
  rcases inf_or_finite hnan with hi | hf
  · rwa [fmulBits_two_inf cfg hi]
  · have hround := fmulBits_isRounded cfg (a := twoF) (by decide) hf (by decide) hz
    have hpos := realValue_pos h
    exact hround.positiveF_of_le hf hpos (by rw [realValue_twoF]; linarith)

/-- A quotient of these signs is at least 0 unless it is inf/inf, a NaN (40_numerics R69). -/
theorem nonnegF_fdivBits (cfg : Config) {a b : F} (ha : nonnegF a = true) (hb : positiveF b = true)
    (hf : isFinite a = true ∨ isFinite b = true) : nonnegF (fdivBits cfg a b) = true := by
  obtain ⟨hna, hsa⟩ := nonnegF_iff.1 ha
  obtain ⟨hnb, hzb, hsb⟩ := positiveF_iff.1 hb
  rcases inf_or_finite hna with hia | hfa
  · have hfb : isFinite b = true := hf.resolve_left (by simp [not_nan_of_inf hia])
    have hs : signBit a = false := hsa.resolve_left (by simp [not_nan_of_inf hia])
    rw [fdivBits_inf_left cfg hia hfb, hs, hsb]
    decide
  rcases inf_or_finite hnb with hib | hfb
  · rw [fdivBits_inf_right cfg hfa hib]
    exact nonnegF_of_zero (isZero_zeroF _)
  cases hza : isZero a
  · exact (fdivBits_isRounded cfg hfa hfb hza hzb).nonnegF_of_nonneg
      (div_nonneg (realValue_nonneg_iff.2 hsa) (realValue_pos hb).le)
  · rw [fdivBits_zero_left cfg hza hfb hzb]
    exact nonnegF_of_zero (isZero_zeroF _)

/-! ## The bound on A0 (42_design_ops R100) -/

/-- A sine that is a number is that of a finite angle, and finite (40_numerics R75). -/
theorem isFinite_fsinBits (cfg : Config) {w : F} (h : isNaN (fsinBits cfg w) = false) :
    isFinite (fsinBits cfg w) = true := by
  have hw : isFinite w = true := by
    by_contra hw
    rw [isNaN_fsinBits cfg (Bool.eq_false_iff.2 hw)] at h
    cases h
  exact (realValue_bounds_of_magBits (magBits_fsinBits cfg hw)).1

theorem nonnegF_alpha (cfg : Config) {fs freq q : F}
    (hs : nonnegF (fsinBits cfg (designW0 (binary32 cfg) fs freq)) = true) (hq : positiveF q = true) :
    nonnegF (sharedTerms (binary32 cfg) fs freq q).alpha = true :=
  nonnegF_fdivBits cfg hs (positiveF_fmulBits_two cfg hq) (.inl (isFinite_fsinBits cfg (nonnegF_iff.1 hs).1))

/-- Settles O53: A0 is 1 plus a value that is at least 0, alpha itself or, for Peak, its quotient by the root of gain. -/
theorem passAndPeakA0AtLeastOne : Obligations.PassAndPeakA0AtLeastOne := by
  intro cfg fs freq gain q N hs hq
  have halpha := nonnegF_alpha cfg hs hq
  refine ⟨atLeastOneF_one_fadd cfg halpha, atLeastOneF_one_fadd cfg halpha, fun hg hgf => ?_⟩
  obtain ⟨hA, hAf⟩ := fsqrtBits_positive cfg hg hgf
  exact atLeastOneF_one_fadd cfg (nonnegF_fdivBits cfg halpha hA (.inr hAf))

/-! ## The shelves at gain 1.0 (42_design_ops R101) -/

theorem cw_bounds (cfg : Config) {fs freq : F} (q : F) (hw : isFinite (designW0 (binary32 cfg) fs freq) = true) :
    isFinite (sharedTerms (binary32 cfg) fs freq q).cw = true ∧
      |realValue (sharedTerms (binary32 cfg) fs freq q).cw| ≤ 1 := by
  obtain ⟨hf, hlo, hhi⟩ := realValue_bounds_of_magBits (magBits_fcosBits cfg hw)
  exact ⟨hf, abs_le.2 ⟨hlo, hhi⟩⟩

/-- The shelf terms at gain 1.0: A - 1 is a zero, so `u` and `v` are both A + 1 = 2. -/
theorem shelfTerms_oneF (cfg : Config) {fs freq q : F} (hcw : isFinite (sharedTerms (binary32 cfg) fs freq q).cw = true)
    (halpha : isNaN (sharedTerms (binary32 cfg) fs freq q).alpha = false) :
    shelfTerms (binary32 cfg) fs freq oneF q =
      { A := oneF
        am1 := zeroF false
        tp := fmulBits cfg twoF (sharedTerms (binary32 cfg) fs freq q).cw
        s := fmulBits cfg twoF (fsqrtBits cfg (sharedTerms (binary32 cfg) fs freq q).alpha)
        u := twoF
        v := twoF } := by
  have htm : isZero (fmulBits cfg (zeroF false) (sharedTerms (binary32 cfg) fs freq q).cw) = true := by
    rw [fmulBits_zero cfg (.inl ⟨isZero_zeroF false, hcw⟩)]
    exact isZero_zeroF _
  have hu := faddBits_zero_right cfg (a := twoF) (by decide) (by decide) htm
  have hv := fsubBits_zero_right cfg (a := twoF) (by decide) (by decide) htm
  simp only [shelfTerms, binary32_fadd, binary32_fsub, binary32_fmul, binary32_fsqrt, binary32_one, binary32_two,
    fsqrtBits_oneF, oneF_faddBits_oneF, oneF_fsubBits_oneF, oneF_fmulBits cfg halpha, hu, hv]

/-- Multiplying by A = 1.0 leaves the outer coefficients, 2 plus or minus s. -/
theorem sameValue_outer (cfg : Config) {c : F} (h : isNaN c = false) : SameValue (fmulBits cfg oneF c) c := by
  rw [oneF_fmulBits cfg h]
  exact sameValue_refl h

theorem zeroF_faddBits (cfg : Config) {x : F} (hx : isFinite x = true) :
    isFinite (faddBits cfg (zeroF false) x) = true ∧ realValue (faddBits cfg (zeroF false) x) = realValue x := by
  have hzero : realValue (zeroF false) = 0 := realValue_of_isZero (isZero_zeroF false)
  simpa [hzero] using faddBits_exact cfg (a := zeroF false) (v := x) (by decide) hx hx (by rw [hzero, zero_add])

theorem zeroF_fsubBits (cfg : Config) {x : F} (hx : isFinite x = true) :
    isFinite (fsubBits cfg (zeroF false) x) = true ∧ realValue (fsubBits cfg (zeroF false) x) = -realValue x := by
  rw [fsubBits_eq_faddBits_fneg cfg _ (not_nan_of_finite hx).1, ← realValue_fneg]
  exact zeroF_faddBits cfg ((isFinite_fneg x).trans hx)

/-- The middle coefficients of both shelves at A - 1 = +0 have the value -2x, where x is `tp`; the negation stands at
different operations, so that zeros may differ in sign. -/
theorem sameValue_middle (cfg : Config) {x : F} (hx : isFinite x = true) (hle : |realValue x| ≤ 2) :
    SameValue (fmulBits cfg twoF (fsubBits cfg (zeroF false) x))
        (fnegBits (fmulBits cfg twoF (faddBits cfg (zeroF false) x))) ∧
      SameValue (fmulBits cfg (fnegBits twoF) (faddBits cfg (zeroF false) x))
        (fmulBits cfg twoF (fsubBits cfg (zeroF false) x)) := by
  obtain ⟨hpf, hp⟩ := zeroF_faddBits cfg hx
  obtain ⟨hmf, hm⟩ := zeroF_fsubBits cfg hx
  obtain ⟨hdpf, hdp⟩ := fmulBits_two_exact cfg hpf (by rwa [hp])
  obtain ⟨hdmf, hdm⟩ := fmulBits_two_exact cfg hmf (by rwa [hm, abs_neg])
  have hnf := (isFinite_fneg _).trans hdpf
  obtain ⟨hprodf, hprod⟩ := fmulBits_exact cfg (a := fnegBits twoF) (by decide) hpf hnf
    (by rw [realValue_fneg, realValue_fneg, hdp, realValue_twoF]; ring)
  constructor
  · refine sameValue_of_realValue_eq hdmf hnf ?_
    rw [realValue_fneg, hdm, hdp, hm, hp]
    ring
  · refine sameValue_of_realValue_eq hprodf hdmf ?_
    rw [hprod, hdm, hm, hp, realValue_fneg, realValue_twoF]
    ring

/-- Settles O52: with A = 1.0 the outer coefficients agree as patterns, and the middle ones as values. -/
theorem unityGainShelvesValueEqual : Obligations.UnityGainShelvesValueEqual := by
  intro cfg fs freq q ft hft N k hw halpha
  obtain ⟨hcf, hc⟩ := cw_bounds cfg q hw
  have hterms := shelfTerms_oneF cfg hcf (nonnegF_iff.1 halpha).1
  have hs := not_nan_fmulBits_two cfg (nonnegF_iff.1 (nonnegF_fsqrtBits cfg halpha)).1
  have hsum := sameValue_outer cfg (not_nan_faddBits cfg (a := twoF) (by decide) hs)
  have hdiff := sameValue_outer cfg (not_nan_fsubBits cfg (a := twoF) (by decide) hs)
  obtain ⟨htpf, htp⟩ := fmulBits_two_exact cfg hcf (hc.trans one_le_two)
  obtain ⟨hlow, hhigh⟩ := sameValue_middle cfg htpf (by rw [htp, abs_mul, abs_two]; linarith)
  have htwo : fmulBits cfg twoF oneF = twoF := fmulBits_oneF cfg (by decide)
  have hone : 0x3F800000#32 = oneF := rfl
  rcases hft with rfl | rfl
  · simp only [k, N, design, designLs, hone, hterms, htwo, binary32_fmul, binary32_fadd, binary32_fsub, binary32_fneg,
      binary32_two]
    exact ⟨hsum, hlow, hdiff⟩
  · simp only [k, N, design, designHs, hone, hterms, htwo, binary32_fmul, binary32_fadd, binary32_fsub, binary32_fneg,
      binary32_two]
    exact ⟨hsum, hhigh, hdiff⟩

end Sys2Proof.Machine
end

section
/-! PROOF. The family of 43_sample_ops, the command: what SMP leaves unchanged, what it computes, and that a BEGIN repeated
between samples changes nothing (43_sample_ops R110 to R113; 42_design_ops R103). -/

namespace Sys2Proof.Machine

/-! ## What an SMP leaves unchanged (43_sample_ops R110) -/

/-- The registers no SMP writes, whichever way it answers. -/
theorem Answers.smp_keeps {c : Nat} {x : F} {s t : State} (ha : Answers s (.smp c x) t) :
    t.coef = s.coef ∧ t.cv = s.cv ∧ t.nch = s.nch ∧ t.cmdIn = s.cmdIn ∧ t.resets = s.resets := by
  cases ha with
  | faulted | outOfRange | noCoef | filtered => exact ⟨rfl, rfl, rfl, rfl, rfl⟩
  | designed _ ft fs freq gain q hi => exact absurd hi (smp_ne_beginInstr c x ft fs freq gain q)

/-- No SMP writes a cell of another channel (20_memory R34). -/
theorem Answers.smp_channel_other {c c' : Nat} {x : F} {s t : State} (ha : Answers s (.smp c x) t) (hne : c' ≠ c) :
    channel c' t = channel c' s := by
  cases ha with
  | faulted | outOfRange | noCoef => rfl
  | filtered _ _ g => exact channel_setChannel_other _ s hne
  | designed _ ft fs freq gain q hi => exact absurd hi (smp_ne_beginInstr c x ft fs freq gain q)

/-- SMP meets the fault state (60_exceptions R125), fails one of its two checks (R128, R130), or keeps FAULT = 0 and
FCODE. -/
theorem Answers.smp_fault_cases {c : Nat} {x : F} {s t : State} (ha : Answers s (.smp c x) t) :
    (s.fault = true ∧ t.fault = true ∧ t.fcode = s.fcode ∧ t.hist = s.hist) ∨
    (s.fault = false ∧ ¬(c < s.nch ∧ s.cv = true) ∧ t.fault = true ∧ t.hist = s.hist) ∨
    (s.fault = false ∧ t.fault = false ∧ t.fcode = s.fcode) := by
  cases ha with
  | faulted _ hf => exact .inl ⟨hf, hf, rfl, rfl⟩
  | outOfRange _ _ hf hc =>
    exact .inr (.inl ⟨hf, fun h => absurd h.1 (channelInRange_false.1 hc).not_gt, rfl, rfl⟩)
  | noCoef _ _ hf _ hv => exact .inr (.inl ⟨hf, fun h => absurd (hv.symm.trans h.2) nofun, rfl, rfl⟩)
  | filtered _ _ _ hf => exact .inr (.inr ⟨hf, hf, rfl⟩)
  | designed _ ft fs freq gain q hi => exact absurd hi (smp_ne_beginInstr c x ft fs freq gain q)

/-- Settles O28: the registers no SMP writes, then FAULT, FCODE and the history for each way SMP can answer. -/
theorem smpFrame : Obligations.SmpFrame := by
  intro c x s t h
  have ha := answers_of_exec h
  obtain ⟨hcoef, hcv, hnch, hin, hresets⟩ := ha.smp_keeps
  have hother : ∀ c' k, c' ≠ c → cellX t c' k = cellX s c' k ∧ cellY t c' k = cellY s c' k := fun c' k hne => by
    simp only [cellX, cellY, ha.smp_channel_other hne, and_self]
  refine ⟨hcoef, hcv, hnch, hin, hresets, ha.nchMax_eq, hother, ?_⟩
  obtain ⟨hs, ht, hcode, hhist⟩ | ⟨hs, hcheck, ht, hhist⟩ | ⟨hs, ht, hcode⟩ := ha.smp_fault_cases
  · exact ⟨fun _ => hhist, fun _ => ⟨ht, hcode⟩, fun _ _ => ⟨ht.trans hs.symm, hcode⟩⟩
  · exact ⟨fun _ => hhist, by simp [hs], fun hc hv => absurd ⟨hc, hv⟩ hcheck⟩
  · exact ⟨by simp [ht], by simp [hs], fun _ _ => ⟨ht.trans hs.symm, hcode⟩⟩

/-! ## What an SMP computes (43_sample_ops R110 to R112) -/

theorem cellX_of_channel {c k : Nat} {s : State} {g : ChannelHistory} (h : channel c s = some g) :
    cellX s c k = delayCell g.x k := by
  rw [cellX, h]
  rfl

theorem cellY_of_channel {c k : Nat} {s : State} {g : ChannelHistory} (h : channel c s = some g) :
    cellY s c k = delayCell g.y k := by
  rw [cellY, h]
  rfl

/-- Settles O21: the live cells are those of the channel's slot, and the recurrence is the one R111 spells out. -/
theorem smpFiltersSample : Obligations.SmpFiltersSample := by
  intro c x s hf hc hn hv
  obtain ⟨g, hg⟩ := Option.isSome_iff_exists.1 (channel_isSome.2 (hc.trans_le hn))
  exact ⟨g.x.d0, g.x.d1, g.y.d0, g.y.d1, cellX_of_channel hg, cellX_of_channel hg, cellY_of_channel hg,
    cellY_of_channel hg, exec_smp_ok hf (channelInRange_true.2 hc) hv hg⟩

/-! ## Earlier responses have no effect (30_encoding R45) -/

/-- The state with other responses emitted before. -/
def withResponses (l : List RspWord) (s : State) : State := { s with rspOut := l }

/-- An instruction appends one response and reads none. -/
theorem exec_withResponses {i : Instr} {s t : State} (h : exec i s = .next t) :
    ∃ r, t.rspOut = s.rspOut ++ [r] ∧ ∀ l, exec i (withResponses l s) = .next (withResponses (l ++ [r]) t) := by
  cases answers_of_exec h with
  | faulted i hf => exact ⟨_, rfl, fun l => exec_faulted (s := withResponses l s) i hf⟩
  | tooMany n hf hn => exact ⟨_, rfl, fun l => exec_init_tooMany (s := withResponses l s) hf hn⟩
  | established n hf hn => exact ⟨_, rfl, fun l => exec_init_ok (s := withResponses l s) hf hn⟩
  | designed i ft fs freq gain q hi hf =>
    subst hi
    exact ⟨_, rfl, fun l => exec_begin_live (s := withResponses l s) ft fs freq gain q hf⟩
  | outOfRange c x hf hc => exact ⟨_, rfl, fun l => exec_smp_outOfRange (s := withResponses l s) x hf hc⟩
  | noCoef c x hf hc hv => exact ⟨_, rfl, fun l => exec_smp_noCoef (s := withResponses l s) x hf hc hv⟩
  | filtered c x g hf hc hv hg => exact ⟨_, rfl, fun l => exec_smp_ok (s := withResponses l s) hf hc hv hg⟩

/-- Where a list of commands answers, its first command does, and the others from there. -/
theorem execAll_cons_next {i : Instr} {is : List Instr} {s t : State} (h : execAll (i :: is) s = .next t) :
    ∃ u, exec i s = .next u ∧ execAll is u = .next t := by
  cases hi : exec i s with
  | next u => exact ⟨u, rfl, execAll_cons_of_exec is hi ▸ h⟩
  | fault r | refused r => rw [execAll, hi] at h; cases h

/-- A list of commands appends its responses and reads none. -/
theorem execAll_withResponses {is : List Instr} {s t : State} (h : execAll is s = .next t) :
    ∃ rs, t.rspOut = s.rspOut ++ rs ∧ ∀ l, execAll is (withResponses l s) = .next (withResponses (l ++ rs) t) := by
  induction is generalizing s with
  | nil => cases h; exact ⟨[], by simp, fun l => by simp [execAll]⟩
  | cons i is ih =>
    obtain ⟨u, hi, hrest⟩ := execAll_cons_next h
    obtain ⟨r, hr, hfirst⟩ := exec_withResponses hi
    obtain ⟨rs, hrs, hlater⟩ := ih hrest
    refine ⟨r :: rs, by simp [hrs, hr], fun l => ?_⟩
    rw [execAll_cons_of_exec is (hfirst l), hlater, List.append_assoc, List.singleton_append]

theorem execAll_append {is : List Instr} {s u : State} (js : List Instr) (h : execAll is s = .next u) :
    execAll (is ++ js) s = execAll js u := by
  induction is generalizing s with
  | nil => cases h; rfl
  | cons i is ih =>
    obtain ⟨v, hi, hrest⟩ := execAll_cons_next h
    rw [List.cons_append, execAll_cons_of_exec _ hi, ih hrest]

/-! ## Repeating a BEGIN (43_sample_ops R113) -/

/-- COEF holds the designed set k, unless the block is in the fault state. -/
def Loaded (k : Coef) (s : State) : Prop := s.fault = false → s.coef = k ∧ s.cv = true

/-- A BEGIN leaves its own design, in the fault state as well: there no command reads COEF. -/
theorem loaded_of_begin {ft : FilterType} {fs freq gain q : F} {s t : State}
    (h : exec (beginInstr ft fs freq gain q) s = .next t) : Loaded (design machineNum ft fs freq gain q) t := by
  intro hf
  obtain ⟨-, -, hfault, -⟩ := (answers_of_exec h).begin_keeps
  rw [exec_begin_live ft fs freq gain q (hfault.symm.trans hf)] at h
  cases h
  exact ⟨rfl, rfl⟩

/-- SMP writes no coefficient and leaves no fault state. -/
theorem Answers.smp_loaded {c : Nat} {x : F} {k : Coef} {s t : State} (ha : Answers s (.smp c x) t) (h : Loaded k s) :
    Loaded k t := by
  intro hf
  obtain ⟨hcoef, hcv, -⟩ := ha.smp_keeps
  obtain ⟨-, ht, -⟩ | ⟨-, -, ht, -⟩ | ⟨hs, -⟩ := ha.smp_fault_cases
  · exact absurd (ht.symm.trans hf) nofun
  · exact absurd (ht.symm.trans hf) nofun
  · rw [hcoef, hcv]
    exact h hs

/-- A legal state has a slot for each of its channels (10_state R14). -/
theorem nch_le_of_legal {s : State} (h : s.Legal) : s.nch ≤ nchMax s := by
  obtain ⟨-, -, hn, -, -⟩ := h
  exact hn

/-- From a legal state every list of SMPs runs through, faults included, and keeps the loaded design. -/
theorem execAll_smps_loaded {k : Coef} {s : State} (l : List (Nat × F)) (hl : s.Legal) (hk : Loaded k s) :
    ∃ t, execAll (smps l) s = .next t ∧ t.Legal ∧ Loaded k t := by
  induction l generalizing s with
  | nil => exact ⟨s, rfl, hl, hk⟩
  | cons p l ih =>
    obtain ⟨u, hu⟩ := exec_answers (.smp p.1 p.2) (nch_le_of_legal hl)
    obtain ⟨t, ht, hlt, hkt⟩ := ih ((answers_of_exec hu).legal hl) ((answers_of_exec hu).smp_loaded hk)
    exact ⟨t, (execAll_cons_of_exec _ hu).trans ht, hlt, hkt⟩

/-- A BEGIN whose design is loaded changes nothing but for its own response, which carries no sample. -/
theorem exec_begin_again {ft : FilterType} {fs freq gain q : F} {s : State}
    (hk : Loaded (design machineNum ft fs freq gain q) s) :
    ∃ r, dataWords [r] = [] ∧ exec (beginInstr ft fs freq gain q) s = .next (withResponses (s.rspOut ++ [r]) s) := by
  cases hf : s.fault with
  | true => exact ⟨rspWord (.err s.fcode), by simp [dataWords, rspWord], exec_faulted _ hf⟩
  | false =>
    obtain ⟨hcoef, hcv⟩ := hk hf
    have hsame : setCoef (design machineNum ft fs freq gain q) s = s := by rw [setCoef, ← hcoef, ← hcv]
    refine ⟨rspWord .ack, by decide, ?_⟩
    rw [exec_begin_live ft fs freq gain q hf, hsame]
    rfl

theorem dataWords_append (l l' : List RspWord) : dataWords (l ++ l') = dataWords l ++ dataWords l' :=
  List.filter_append _ _

theorem smps_append (l l' : List (Nat × F)) : smps (l ++ l') = smps l ++ smps l' := List.map_append

/-- Settles O35: at the second BEGIN its design is loaded, so that it only answers, and what follows reads no response. -/
theorem blockSplittingChangesNothing : Obligations.BlockSplittingChangesNothing := by
  intro ft fs freq gain q xs ys s hl b _
  obtain ⟨s₁, hb⟩ := exec_answers b (nch_le_of_legal hl)
  obtain ⟨u, hxs, hlu, hku⟩ := execAll_smps_loaded xs ((answers_of_exec hb).legal hl) (loaded_of_begin hb)
  obtain ⟨t, hys, -⟩ := execAll_smps_loaded ys hlu hku
  obtain ⟨r, hr, hagain⟩ := exec_begin_again hku
  obtain ⟨rs, hrs, hlater⟩ := execAll_withResponses hys
  refine ⟨withResponses (u.rspOut ++ [r] ++ rs) t, t, ?_, ?_, rfl, ?_⟩
  · calc execAll (b :: (smps xs ++ b :: smps ys)) s
        = execAll (smps xs ++ b :: smps ys) s₁ := execAll_cons_of_exec _ hb
      _ = execAll (b :: smps ys) u := execAll_append _ hxs
      _ = execAll (smps ys) (withResponses (u.rspOut ++ [r]) u) := execAll_cons_of_exec _ hagain
      _ = _ := hlater _
  · calc execAll (b :: smps (xs ++ ys)) s
        = execAll (smps (xs ++ ys)) s₁ := execAll_cons_of_exec _ hb
      _ = execAll (smps xs ++ smps ys) s₁ := by rw [smps_append]
      _ = execAll (smps ys) u := execAll_append _ hxs
      _ = .next t := hys
  · change dataWords (u.rspOut ++ [r] ++ rs) = _
    rw [hrs, dataWords_append, dataWords_append, hr, List.append_nil, ← dataWords_append]

end Sys2Proof.Machine
end

section
/-! PROOF. The family of 43_sample_ops, the values: silence, and a sample with degenerate coefficients (43_sample_ops R114,
R116; 40_numerics R68, R69). -/

namespace Sys2Proof.Machine

/-! ## The recurrence over binary32 (43_sample_ops R111) -/

theorem accumulate_binary32 (cfg : Config) (k : Coef) (X : Delay) (y1 y2 : F) :
    accumulate (binary32 cfg) k X y1 y2 =
      fsubBits cfg
        (fsubBits cfg
          (faddBits cfg (faddBits cfg (fmulBits cfg k.b0 X.d0) (fmulBits cfg k.b1 X.d1)) (fmulBits cfg k.b2 X.d2))
          (fmulBits cfg k.a1 y1))
        (fmulBits cfg k.a2 y2) := rfl

theorem recurrence_out (cfg : Config) (k : Coef) (h : ChannelHistory) (x : F) :
    (recurrence (binary32 cfg) k h x).2 =
      fdivBits cfg (accumulate (binary32 cfg) k (shiftIn h.x x) h.y.d0 h.y.d1) k.a0 := rfl

/-! ## Silence (43_sample_ops R114) -/

theorem zeroF_false : zeroF false = 0 := by decide

/-- A product with +0 is the zero of the other factor's sign. -/
theorem fmulBits_posZero (cfg : Config) {v : F} (hv : isFinite v = true) :
    fmulBits cfg v 0 = zeroF (signBit v) := by
  rw [fmulBits_zero cfg (.inr ⟨hv, by decide⟩), ← zeroF_false, signBit_zeroF, Bool.bne_false]

/-- A sum of zeros is -0 only where both are. -/
theorem faddBits_zeroF (cfg : Config) (s t : Bool) : faddBits cfg (zeroF s) (zeroF t) = zeroF (s && t) := by
  have hunits : ∀ s, units (zeroF s) = 0 := by decide
  rw [faddBits_finite cfg (finite_of_zero (isZero_zeroF s)) (finite_of_zero (isZero_zeroF t)), hunits, hunits,
    if_pos (add_zero 0), signBit_zeroF, signBit_zeroF]

theorem fsubBits_zeroF (cfg : Config) (s t : Bool) : fsubBits cfg (zeroF s) (zeroF t) = zeroF (s && !t) := by
  have hneg : fnegBits (zeroF t) = zeroF (!t) := by cases t <;> decide
  rw [fsubBits_eq_faddBits_fneg cfg _ (not_nan_of_zero (isZero_zeroF t)).1, hneg, faddBits_zeroF]

/-- A zero divided by a number other than zero, infinite or not, is a zero. -/
theorem fdivBits_zeroF (cfg : Config) (s : Bool) {v : F} (hn : isNaN v = false) (hz : isZero v = false) :
    fdivBits cfg (zeroF s) v = zeroF (s != signBit v) := by
  have hzero := isZero_zeroF s
  rcases inf_or_finite hn with hi | hf
  · rw [fdivBits_inf_right cfg (finite_of_zero hzero) hi, signBit_zeroF]
  · rw [fdivBits_zero_left cfg hzero hf hz, signBit_zeroF]

/-- The accumulator of a silent channel is a zero, -0 only where B0, B1, B2 are negative and A1, A2 are not. -/
theorem accumulate_silence (cfg : Config) {k : Coef} (ha1 : isFinite k.a1 = true) (ha2 : isFinite k.a2 = true)
    (hb0 : isFinite k.b0 = true) (hb1 : isFinite k.b1 = true) (hb2 : isFinite k.b2 = true) :
    accumulate (binary32 cfg) k zeroDelay 0 0 =
      zeroF ((((signBit k.b0 && signBit k.b1) && signBit k.b2) && !signBit k.a1) && !signBit k.a2) := by
  simp only [accumulate_binary32, zeroDelay, fmulBits_posZero cfg ha1, fmulBits_posZero cfg ha2, fmulBits_posZero cfg hb0,
    fmulBits_posZero cfg hb1, fmulBits_posZero cfg hb2, faddBits_zeroF, fsubBits_zeroF]

/-- Settles O54: the accumulator is a zero, and +0 where B0's sign bit is 0. -/
theorem silenceStaysSilent : Obligations.SilenceStaysSilent := by
  intro cfg k hnan hz ha1 ha2 hb0 hb1 hb2 r
  have hout : r.2 = zeroF (_ != signBit k.a0) :=
    (congrArg (fdivBits cfg · k.a0) (accumulate_silence cfg ha1 ha2 hb0 hb1 hb2)).trans (fdivBits_zeroF cfg _ hnan hz)
  refine ⟨hout ▸ isZero_zeroF _, fun hsa hsb => ?_⟩
  have hzero : r.2 = 0 := by rw [hout, hsa, hsb, ← zeroF_false]; simp
  have hr : r = ({ x := zeroDelay, y := { zeroDelay with d0 := r.2 } }, r.2) := rfl
  rw [hr, hzero]
  rfl

/-! ## Degenerate numerics (43_sample_ops R116) -/

/-- A NaN among the five products makes the accumulator a NaN. -/
theorem isNaN_accumulate_of_product (cfg : Config) {k : Coef} {X : Delay} {y1 y2 : F}
    (h : (((isNaN (fmulBits cfg k.b0 X.d0) = true ∨ isNaN (fmulBits cfg k.b1 X.d1) = true) ∨
      isNaN (fmulBits cfg k.b2 X.d2) = true) ∨ isNaN (fmulBits cfg k.a1 y1) = true) ∨
        isNaN (fmulBits cfg k.a2 y2) = true) : isNaN (accumulate (binary32 cfg) k X y1 y2) = true :=
  isNaN_fsubBits cfg (h.imp_left fun h => isNaN_fsubBits cfg (h.imp_left fun h => isNaN_faddBits cfg
    (h.imp_left fun h => isNaN_faddBits cfg h)))

/-- A NaN sample or a NaN coefficient makes one of the products a NaN, whatever the other factor. -/
theorem isNaN_accumulate (cfg : Config) {k : Coef} {X : Delay} {y1 y2 : F}
    (h : isNaN X.d0 = true ∨ isNaN k.a1 = true ∨ isNaN k.a2 = true ∨ isNaN k.b0 = true ∨ isNaN k.b1 = true ∨
      isNaN k.b2 = true) : isNaN (accumulate (binary32 cfg) k X y1 y2) = true := by
  apply isNaN_accumulate_of_product
  rcases h with h | h | h | h | h | h <;> simp [isNaN_fmulBits, h]

/-- A number other than zero divided by a zero is an infinity. -/
theorem fdivBits_by_zero (cfg : Config) {a b : F} (hn : isNaN a = false) (hz : isZero a = false) (hb : isZero b = true) :
    fdivBits cfg a b = infF (signBit a != signBit b) := by
  rcases inf_or_finite hn with hi | hf
  · exact fdivBits_inf_left cfg hi (finite_of_zero hb)
  · exact fdivBits_zero_right cfg hf hz hb

/-- Settles O55: the output is the one division of the accumulator by A0, case by case. -/
theorem degenerateNumericsComputed : Obligations.DegenerateNumericsComputed := by
  intro cfg k h x N acc r
  have hout : r.2 = fdivBits cfg acc k.a0 := recurrence_out cfg k h x
  rw [hout]
  refine ⟨fun ha hn hz => inf_and_sign_of_eq_infF (fdivBits_by_zero cfg hn hz ha), fun ha hacc => ?_, fun ha hacc => ?_,
    fun ha hacc => isNaN_fdivBits_same cfg (.inr ⟨hacc, ha⟩), fun hnan => ?_, hout⟩
  · rcases hacc with hz | hn
    · exact isNaN_fdivBits_same cfg (.inl ⟨hz, ha⟩)
    · exact isNaN_fdivBits cfg (.inl hn)
  · rw [fdivBits_inf_right cfg hacc ha]
    exact isZero_zeroF _
  · rcases hnan with hx | ha0 | hcoef
    · exact isNaN_fdivBits cfg (.inl (isNaN_accumulate cfg (.inl hx)))
    · exact isNaN_fdivBits cfg (.inr ha0)
    · exact isNaN_fdivBits cfg (.inl (isNaN_accumulate cfg (.inr hcoef)))

end Sys2Proof.Machine
end

section
/-! PROOF. The family of 60_exceptions: the answer in the fault state, what raising a fault writes, the order of the checks,
and the idle step (60_exceptions R125 to R130, R134, R136, R140). -/

namespace Sys2Proof.Machine

/-! ## With no command (60_exceptions R140) -/

/-- Settles O23: the step with no input is the idle one. -/
theorem idleHoldsState : Obligations.IdleHoldsState := fun _ hc => step_idle hc

/-! ## In the fault state (60_exceptions R125, R136) -/

/-- Settles O7: FAULT is checked before the word is decoded and first in every instruction. -/
theorem faultStateAnswersErr : Obligations.FaultStateAnswersErr := by
  refine ⟨fun i s hf => exec_faulted i hf, fun w rest s hf hc => ?_⟩
  have hf' : (setInputs rest s).fault = true := hf
  exact (step_command hc).trans (acceptWord_faulted w hf')

/-! ## Raising a fault (60_exceptions R126 to R130) -/

/-- Settles O13: the channel is in range, CV is 0, and the answer is that of NO_COEF. -/
theorem smpWithoutCoefficientsFaults : Obligations.SmpWithoutCoefficientsFaults := by
  intro c x s hf hc hv
  have hword : rspWord (.err (causeCode .noCoef)) = 0xF0000000003#44 := by decide
  exact (exec_smp_noCoef x hf (channelInRange_true.2 hc) hv).trans (raiseFault_eq s hword)

/-- An instruction that ends with FAULT = 1 where it was 0 has raised a fault and done nothing else. -/
theorem Answers.raised {s t : State} {i : Instr} (ha : Answers s i t) (hf : s.fault = false) (ht : t.fault = true) :
    ∃ f, t = respond (.err (causeCode f)) (setFault f s) := by
  cases ha with
  | faulted _ hf' => exact absurd (hf.symm.trans hf') nofun
  | tooMany | outOfRange | noCoef => exact ⟨_, rfl⟩
  | established | designed | filtered => exact absurd (hf.symm.trans ht) nofun

/-- A step on a command word that ends so has taken the word, raised a fault and done nothing else. -/
theorem step_command_raised {s t : State} {w : CmdWord} {rest : List HostInput} (hc : s.cmdIn = .command w :: rest)
    (hf : s.fault = false) (h : step s = .next t) (ht : t.fault = true) :
    ∃ f, t = respond (.err (causeCode f)) (setFault f (setInputs rest s)) := by
  cases steps_of_step h with
  | idle hc' | reset _ hc' => cases hc.symm.trans hc'
  | faulted _ _ _ hf' => exact absurd (hf.symm.trans hf') nofun
  | illegal _ _ _ hc' => cases hc.symm.trans hc'; exact ⟨_, rfl⟩
  | executed _ _ _ _ hc' _ _ ha => cases hc.symm.trans hc'; exact ha.raised hf ht

/-- Settles O9: the step raised one of the causes of R127, and a raised fault writes what `raiseFault` writes. -/
theorem raisedFaultWritesNothingElse : Obligations.RaisedFaultWritesNothingElse := by
  intro s t w rest hf hc h ht
  obtain ⟨f, rfl⟩ := step_command_raised hc hf h ht
  obtain ⟨hlow, hhigh⟩ := causeCode_range f
  exact ⟨hlow, hhigh, rfl⟩

/-! ## The checks and their order (60_exceptions R127, R134) -/

/-- In a legal state FAULT is 1 exactly when FCODE is not 0 (10_state R15). -/
theorem fault_iff_of_legal {s : State} (h : s.Legal) : s.fault = true ↔ s.fcode ≠ 0 := by
  obtain ⟨-, -, -, hlive, hfaulted⟩ := h
  constructor
  · intro hf hzero
    obtain ⟨hlow, -⟩ := hfaulted hf
    simp [hzero] at hlow
  · intro hne
    exact Bool.eq_true_of_not_eq_false fun hf => hne (hlive hf)

/-- The code an instruction raises in a state with FAULT = 0, and 0 where it raises none: the first of its checks that fails
(60_exceptions R134). -/
def raisedCode (s : State) : Instr → BitVec 4
  | .init n => if n > nchMax s then 4 else 0
  | .smp c _ => if c ≥ s.nch then 2 else if s.cv = false then 3 else 0
  | _ => 0

theorem raisedCode_beginInstr (s : State) (ft : FilterType) (fs freq gain q : F) :
    raisedCode s (beginInstr ft fs freq gain q) = 0 := by
  cases ft <;> rfl

theorem raisedCode_init_fits {n : Nat} {s : State} (hn : countFits n s = true) : raisedCode s (.init n) = 0 :=
  if_neg (countFits_true.1 hn).not_gt

theorem raisedCode_init_tooMany {n : Nat} {s : State} (hn : countFits n s = false) :
    raisedCode s (.init n) = causeCode .chanCount :=
  if_pos (countFits_false.1 hn)

theorem raisedCode_smp_outOfRange {c : Nat} {s : State} (x : F) (hc : channelInRange c s = false) :
    raisedCode s (.smp c x) = causeCode .chanRange :=
  if_pos (channelInRange_false.1 hc)

/-- On a channel in range SMP is left with the check of CV. -/
theorem raisedCode_smp_inRange {c : Nat} {s : State} (x : F) (hc : channelInRange c s = true) :
    raisedCode s (.smp c x) = if s.cv = false then causeCode .noCoef else 0 :=
  if_neg (channelInRange_true.1 hc).not_ge

/-- FCODE after an instruction met with FAULT = 0 and FCODE = 0. -/
theorem Answers.fcode_eq {s t : State} {i : Instr} (ha : Answers s i t) (hf : s.fault = false) (hcode : s.fcode = 0) :
    t.fcode = raisedCode s i := by
  cases ha with
  | faulted _ hf' => exact absurd (hf.symm.trans hf') nofun
  | tooMany _ _ hn => exact (raisedCode_init_tooMany hn).symm
  | established _ _ hn => exact hcode.trans (raisedCode_init_fits hn).symm
  | designed _ ft fs freq gain q hi => exact hcode.trans (hi ▸ raisedCode_beginInstr s ft fs freq gain q).symm
  | outOfRange _ x _ hc => exact (raisedCode_smp_outOfRange x hc).symm
  | noCoef _ x _ hc hv => simp [raisedCode_smp_inRange x hc, hv]
  | filtered _ x _ _ hc hv => simp [raisedCode_smp_inRange x hc, hv, hcode]

/-- Settles O14: FAULT, then decoding, then the checks of the instruction, each way the step can answer. -/
theorem faultChecksInOrder : Obligations.FaultChecksInOrder := by
  intro s w rest hl hc
  obtain ⟨t, h⟩ := legalStepAnswers s hl
  have hs := steps_of_step h
  refine ⟨t, h, fault_iff_of_legal (hs.legal hl), ?_⟩
  obtain ⟨-, -, -, hlive, -⟩ := hl
  cases hs with
  | idle hc' | reset _ hc' => cases hc.symm.trans hc'
  | faulted _ _ _ hf => exact (if_pos hf).symm
  | illegal _ _ _ hc' hf hd =>
    cases hc.symm.trans hc'
    rw [if_neg (Bool.eq_false_iff.1 hf), hd]
    rfl
  | executed _ i _ _ hc' hf hd ha =>
    cases hc.symm.trans hc'
    rw [if_neg (Bool.eq_false_iff.1 hf), hd, ha.fcode_eq hf (hlive hf)]
    cases i <;> rfl

end Sys2Proof.Machine
end

section
/-! PROOF. The family of 70_reset_and_hazards: what a hardware reset clears and what it keeps (70_reset_and_hazards R145). -/

namespace Sys2Proof.Machine

/-- The pin is a level equal to FAULT (30_encoding R57), which a reset clears (10_state R21). -/
@[simp] theorem hardwareReset_faultPin (s : State) : faultPin (hardwareReset s) = false := hardwareReset_fault s

/-- Settles O24: the step takes the reset off the inputs and then is `hardwareReset`, which keeps the inputs left to it. -/
theorem hardwareResetClears : Obligations.HardwareResetClears := by
  intro s rest hc
  refine ⟨hardwareReset (setInputs rest s), step_hwReset hc, ?_⟩
  simp

end Sys2Proof.Machine
end
